-- ==== Sys2Proof/Word.lean ====
section
/-! DEFINITION. The word type, the byte type, the register names and the register file
(00_scope R7, R10; 10_state R15). -/

namespace Sys2Proof

/-- A 16-bit value: a register, a memory cell, an address, an instruction word (R7, R10). -/
abbrev Word := BitVec 16

/-- An 8-bit value: a terminal character or a trap vector (R7, R11). -/
abbrev Byte := BitVec 8

/-- The eight general registers (R15). -/
inductive Reg
  | r0 | r1 | r2 | r3 | r4 | r5 | r6 | r7
  deriving DecidableEq, Repr

/-- The contents of the eight general registers. No register is hardwired and none has an
alias (R15). -/
structure RegFile where
  r0 : Word
  r1 : Word
  r2 : Word
  r3 : Word
  r4 : Word
  r5 : Word
  r6 : Word
  r7 : Word
  deriving DecidableEq, Repr

end Sys2Proof
end

