-- ==== Sys2Proof/Config.lean ====
section
/-! DEFINITION. The open parameters of 00_scope R8, and the one free value of the model. -/

namespace Sys2Proof

/-- KBSR_EMPTY_POLL (R8, 20_memory R39): what a read of 0xFE00 does to the status cell when no
key is waiting. -/
inductive EmptyPoll
  | clear
  | retain
  deriving DecidableEq, Repr

/-- PUTSP_STOP (R8, 43_trap R86): what ends a PUTSP string. -/
inductive PutspStop
  | zeroWord
  | zeroByte
  deriving DecidableEq, Repr

/-- The parameters of R8. They are fixed for a machine: no step changes them. The state carries
them because `exec` and `step` take no other argument (log 4). -/
structure Config where
  /-- STRICT_FIXED_BITS (R52). -/
  strictFixedBits : Bool
  /-- KBSR_EMPTY_POLL (R39). -/
  kbsrEmptyPoll : EmptyPoll
  /-- PUTSP_STOP (R86). -/
  putspStop : PutspStop
  /-- IN_PROMPT (R85). -/
  inPrompt : List Byte
  /-- GPR_RESET (R27, R105). -/
  gprReset : RegFile
  deriving DecidableEq, Repr

/-- The defaults of R8; IN_PROMPT's default is the one of 95_test_vectors. GPR_RESET has no
default in the spec: eight zeros is a DESIGN CHOICE (log 5), unsafe. -/
def Config.default : Config where
  strictFixedBits := false
  kbsrEmptyPoll := .clear
  putspStop := .zeroWord
  inPrompt := []
  gprReset := ⟨0, 0, 0, 0, 0, 0, 0, 0⟩

/-- FREE VALUE (log 6): the answer of the n-th `poll_char` that no scripted answer covers.
R8 makes it a draw of the environment, so nothing here says what it is. -/
opaque Config.freePoll : Nat → Option Byte

end Sys2Proof
end

