-- ==== Sys2Proof/Syntax.lean ====
section
/-! DEFINITION. The instructions: one constructor per row of spec/opcode_table.json.

A field named `fx`, `fxHi` or `fxLo` holds the fixed bits of 30_encoding R52, and `low` the
ignored low bits of RTI and of the reserved opcode. They carry no operand. The syntax keeps them
because R52 tests them under STRICT_FIXED_BITS and because a fault record holds the whole word
(60_exceptions R94): log 21. -/

namespace Sys2Proof

inductive Instr
  /-- ADD, register mode (R63). -/
  | addReg (dr sr1 : Reg) (fx : BitVec 2) (sr2 : Reg)
  /-- ADD, immediate mode (R63). -/
  | addImm (dr sr1 : Reg) (imm5 : BitVec 5)
  /-- AND, register mode (R64). -/
  | andReg (dr sr1 : Reg) (fx : BitVec 2) (sr2 : Reg)
  /-- AND, immediate mode (R64). -/
  | andImm (dr sr1 : Reg) (imm5 : BitVec 5)
  /-- NOT (R65). -/
  | not (dr sr : Reg) (fx : BitVec 6)
  /-- BR (R67). -/
  | br (n z p : Bool) (off9 : BitVec 9)
  /-- JMP; RET is JMP R7 (R68). -/
  | jmp (fxHi : BitVec 3) (base : Reg) (fxLo : BitVec 6)
  /-- JSR (R69). -/
  | jsr (off11 : BitVec 11)
  /-- JSRR (R70). -/
  | jsrr (fxHi : BitVec 2) (base : Reg) (fxLo : BitVec 6)
  /-- LD (R73). -/
  | ld (dr : Reg) (off9 : BitVec 9)
  /-- LDI (R74). -/
  | ldi (dr : Reg) (off9 : BitVec 9)
  /-- LDR (R75). -/
  | ldr (dr base : Reg) (off6 : BitVec 6)
  /-- LEA (R76). -/
  | lea (dr : Reg) (off9 : BitVec 9)
  /-- ST (R77). -/
  | st (sr : Reg) (off9 : BitVec 9)
  /-- STI (R78). -/
  | sti (sr : Reg) (off9 : BitVec 9)
  /-- STR (R79). -/
  | str (sr base : Reg) (off6 : BitVec 6)
  /-- TRAP (R80). -/
  | trap (fx : BitVec 4) (vect : Byte)
  /-- RTI (R90). -/
  | rti (low : BitVec 12)
  /-- The reserved opcode 1101 (R91). -/
  | reserved (low : BitVec 12)
  deriving DecidableEq, Repr

end Sys2Proof
end

