-- ==== Sys2Proof/WellFormed.lean ====
section
/-! DEFINITION. When an instruction has the fixed bits of 30_encoding R49.

Every operand field has its exact width as a type, so an operand out of range cannot be written.
What is left to check is R52: the fixed bits. RTI and the reserved opcode are decided by the
opcode alone (R53, R90, R91), so their low bits are not checked. -/

namespace Sys2Proof

/-- The fixed bits have the values R52 requires: 00, 111111, 000/000000, 00/000000, 0000. -/
def Instr.wellFormed : Instr → Bool
  | .addReg _ _ fx _ => fx == 0b00#2
  | .addImm _ _ _ => true
  | .andReg _ _ fx _ => fx == 0b00#2
  | .andImm _ _ _ => true
  | .not _ _ fx => fx == 0b111111#6
  | .br _ _ _ _ => true
  | .jmp fxHi _ fxLo => fxHi == 0b000#3 && fxLo == 0b000000#6
  | .jsr _ => true
  | .jsrr fxHi _ fxLo => fxHi == 0b00#2 && fxLo == 0b000000#6
  | .ld _ _ => true
  | .ldi _ _ => true
  | .ldr _ _ _ => true
  | .lea _ _ => true
  | .st _ _ => true
  | .sti _ _ => true
  | .str _ _ _ => true
  | .trap fx _ => fx == 0b0000#4
  | .rti _ => true
  | .reserved _ => true

end Sys2Proof
end

