-- ==== Sys2Proof/Decode.lean ====
section
/-! DEFINITION. The decoder (30_encoding R47 to R52) and, after it, the encoder.

The decoder is total on all 65,536 words and refuses none: every 4-bit opcode value selects a
handler (R47). The two opcodes that fault decode to RTI and to the reserved instruction, each
under its own name (R53). The opcode values and most field positions are general knowledge of the
spec (D1): log 1. -/

namespace Sys2Proof

/-- A 3-bit register index field (R48). -/
def Reg.ofBits (b : BitVec 3) : Reg :=
  match b.getLsbD 2, b.getLsbD 1, b.getLsbD 0 with
  | false, false, false => .r0
  | false, false, true => .r1
  | false, true, false => .r2
  | false, true, true => .r3
  | true, false, false => .r4
  | true, false, true => .r5
  | true, true, false => .r6
  | true, true, true => .r7

/-- The index of a register (R15). -/
def Reg.bits : Reg → BitVec 3
  | .r0 => 0
  | .r1 => 1
  | .r2 => 2
  | .r3 => 3
  | .r4 => 4
  | .r5 => 5
  | .r6 => 6
  | .r7 => 7

/-- The register field at bits 11:9: DR, or SR of ST, STI and STR (R48, R49). -/
def regHi (w : Word) : Reg := Reg.ofBits (w.extractLsb' 9 3)

/-- The register field at bits 8:6: SR1, SR of NOT, BaseR (R48, R49). -/
def regMid (w : Word) : Reg := Reg.ofBits (w.extractLsb' 6 3)

/-- The register field at bits 2:0: SR2 (R48, R49). -/
def regLo (w : Word) : Reg := Reg.ofBits (w.extractLsb' 0 3)

/-- imm5, bits 4:0 (R50). -/
def imm5Of (w : Word) : BitVec 5 := w.extractLsb' 0 5

/-- offset6, bits 5:0 (R50). -/
def off6Of (w : Word) : BitVec 6 := w.extractLsb' 0 6

/-- PCoffset9, bits 8:0 (R50). -/
def off9Of (w : Word) : BitVec 9 := w.extractLsb' 0 9

/-- PCoffset11, bits 10:0 (R50). -/
def off11Of (w : Word) : BitVec 11 := w.extractLsb' 0 11

/-- The dispatch of R47 on bits 15:12, with the mode bits of R51 (bit 5 of ADD and AND, bit 11 of
opcode 0100). -/
def decode (w : Word) : Instr :=
  match w.getLsbD 15, w.getLsbD 14, w.getLsbD 13, w.getLsbD 12 with
  | false, false, false, false => .br (w.getLsbD 11) (w.getLsbD 10) (w.getLsbD 9) (off9Of w)
  | false, false, false, true =>
    if w.getLsbD 5 then .addImm (regHi w) (regMid w) (imm5Of w)
    else .addReg (regHi w) (regMid w) (w.extractLsb' 3 2) (regLo w)
  | false, false, true, false => .ld (regHi w) (off9Of w)
  | false, false, true, true => .st (regHi w) (off9Of w)
  | false, true, false, false =>
    if w.getLsbD 11 then .jsr (off11Of w)
    else .jsrr (w.extractLsb' 9 2) (regMid w) (off6Of w)
  | false, true, false, true =>
    if w.getLsbD 5 then .andImm (regHi w) (regMid w) (imm5Of w)
    else .andReg (regHi w) (regMid w) (w.extractLsb' 3 2) (regLo w)
  | false, true, true, false => .ldr (regHi w) (regMid w) (off6Of w)
  | false, true, true, true => .str (regHi w) (regMid w) (off6Of w)
  | true, false, false, false => .rti (w.extractLsb' 0 12)
  | true, false, false, true => .not (regHi w) (regMid w) (off6Of w)
  | true, false, true, false => .ldi (regHi w) (off9Of w)
  | true, false, true, true => .sti (regHi w) (off9Of w)
  | true, true, false, false => .jmp (w.extractLsb' 9 3) (regMid w) (off6Of w)
  | true, true, false, true => .reserved (w.extractLsb' 0 12)
  | true, true, true, false => .lea (regHi w) (off9Of w)
  | true, true, true, true => .trap (w.extractLsb' 8 4) (w.extractLsb' 0 8)

/-- A field of an instruction word with its lowest bit at position `k`. -/
def place {n : Nat} (k : Nat) (v : BitVec n) : Word := v.setWidth 16 <<< k

/-- The word of an instruction, written from the formats of R49. -/
def encode : Instr → Word
  | .addReg dr sr1 fx sr2 =>
    place 12 0b0001#4 ||| place 9 dr.bits ||| place 6 sr1.bits ||| place 3 fx ||| place 0 sr2.bits
  | .addImm dr sr1 imm5 =>
    place 12 0b0001#4 ||| place 9 dr.bits ||| place 6 sr1.bits ||| place 5 0b1#1 ||| place 0 imm5
  | .andReg dr sr1 fx sr2 =>
    place 12 0b0101#4 ||| place 9 dr.bits ||| place 6 sr1.bits ||| place 3 fx ||| place 0 sr2.bits
  | .andImm dr sr1 imm5 =>
    place 12 0b0101#4 ||| place 9 dr.bits ||| place 6 sr1.bits ||| place 5 0b1#1 ||| place 0 imm5
  | .not dr sr fx => place 12 0b1001#4 ||| place 9 dr.bits ||| place 6 sr.bits ||| place 0 fx
  | .br n z p off9 =>
    place 12 0b0000#4 ||| place 11 (BitVec.ofBool n) ||| place 10 (BitVec.ofBool z) |||
      place 9 (BitVec.ofBool p) ||| place 0 off9
  | .jmp fxHi base fxLo =>
    place 12 0b1100#4 ||| place 9 fxHi ||| place 6 base.bits ||| place 0 fxLo
  | .jsr off11 => place 12 0b0100#4 ||| place 11 0b1#1 ||| place 0 off11
  | .jsrr fxHi base fxLo =>
    place 12 0b0100#4 ||| place 9 fxHi ||| place 6 base.bits ||| place 0 fxLo
  | .ld dr off9 => place 12 0b0010#4 ||| place 9 dr.bits ||| place 0 off9
  | .ldi dr off9 => place 12 0b1010#4 ||| place 9 dr.bits ||| place 0 off9
  | .ldr dr base off6 =>
    place 12 0b0110#4 ||| place 9 dr.bits ||| place 6 base.bits ||| place 0 off6
  | .lea dr off9 => place 12 0b1110#4 ||| place 9 dr.bits ||| place 0 off9
  | .st sr off9 => place 12 0b0011#4 ||| place 9 sr.bits ||| place 0 off9
  | .sti sr off9 => place 12 0b1011#4 ||| place 9 sr.bits ||| place 0 off9
  | .str sr base off6 =>
    place 12 0b0111#4 ||| place 9 sr.bits ||| place 6 base.bits ||| place 0 off6
  | .trap fx vect => place 12 0b1111#4 ||| place 8 fx ||| place 0 vect
  | .rti low => place 12 0b1000#4 ||| place 0 low
  | .reserved low => place 12 0b1101#4 ||| place 0 low

/-- The opcode field, bits 15:12 (R47). -/
def opcodeOf (w : Word) : BitVec 4 := w.extractLsb' 12 4

/-- The trap vector field, bits 7:0 (R50). -/
def vectorOf (w : Word) : Byte := w.extractLsb' 0 8

/-- The instruction the decoder reads from a word of the opcode table, given as a number of
`nbits` bits. Every instruction is one 16-bit cell (R55), so more bits than 16 are no instruction,
and bits above `nbits` are zero. -/
def decodeTableWord (nbits w : Nat) : Option Instr :=
  if nbits ≤ 16 then some (decode (BitVec.ofNat 16 (w % 2 ^ nbits))) else none

end Sys2Proof
end

