-- ==== Sys2Proof/Machine/State.lean ====
section
/-! DEFINITION. The state of the machine as plain data, the ways a step can stop, and the state at
the start of a run (10_state; 70_reset R105). -/

namespace Sys2Proof.Machine

/-- One memory cell: its address and its 16-bit content. The cell is the smallest addressable
unit (20_memory R28, R31): log 2. -/
abbrev Cell := Nat × Word

/-- Memory as the list of the cells that are not zero, addresses rising. An unlisted cell reads
0x0000 (70_reset R103); the canonical form is `Memory.wf` in Machine/Memory.lean. -/
abbrev Memory := List Cell

/-- The condition-flag register: exactly one of Negative, Zero, Positive (10_state R17). -/
inductive Cond
  | N
  | Z
  | P
  deriving DecidableEq, Repr

/-- The kinds of fault of the block (60_exceptions R92). -/
inductive FaultKind
  | reservedInstruction
  | unknownTrapVector
  | illegalEncoding
  | terminalIOError
  deriving DecidableEq, Repr

/-- The record of a fault (60_exceptions R94): its kind, the address A of the instruction, and the
instruction's word. The code, the opcode and the vector of R94 are computed from these in
Machine/Ops.lean. -/
structure FaultRecord where
  kind : FaultKind
  pc : Word
  word : Word
  deriving DecidableEq, Repr

/-- The run state (10_state R20). -/
inductive RunState
  | running
  | halted
  | faulted (info : FaultRecord)
  deriving DecidableEq, Repr

/-- The answer of a blocking terminal read (43_trap R82, R89). -/
inductive ReadAnswer
  | byte (c : Byte)
  | ioError
  deriving DecidableEq, Repr

/-- The terminal: the environment's answers that are still to come, and what the block has
written. The answers are draws (00_scope R8); a claim about every state holds for every draw. -/
structure Terminal where
  /-- Answers of the next `poll_char` calls (20_memory R38); beyond them `Config.freePoll` answers
  (log 6). -/
  polls : List (Option Byte)
  /-- The model's own counter of polls answered by `Config.freePoll` (log 6). -/
  freePolls : Nat
  /-- Answers of the next blocking reads; an empty list has not answered yet (R89, log 7). -/
  reads : List ReadAnswer
  /-- How many more output operations (a written byte, a flush) are accepted before one reports
  an I/O error; `none` accepts every one (R89, log 8). -/
  outLeft : Option Nat
  /-- The output `out`, oldest byte first (43_trap). -/
  out : List Byte
  /-- How many bytes of `out` a flush has made reach the terminal (R87, log 20). -/
  flushed : Nat
  deriving DecidableEq, Repr

/-- A trap routine that has not returned (43_trap R84, R86, R89; log 7, 9). -/
inductive TrapWork
  /-- GETC waits for its character (R82). -/
  | getc
  /-- IN has written its prompt and waits for its character (R85). -/
  | inEcho
  /-- PUTS will next read the cell at `a` (R84). -/
  | puts (a : Word)
  /-- PUTSP will next read the cell at `a` (R86). -/
  | putsp (a : Word)
  deriving DecidableEq, Repr

/-- The TRAP that is still executing: its instruction word and the rest of its routine. -/
structure Busy where
  word : Word
  work : TrapWork
  deriving DecidableEq, Repr

/-- The whole state. `x`, `pc`, `cond`, `run` are the block's (10_state R15, R17, R20, R21), `mem`
is the memory with the keyboard cells in it (20_memory R28, R38), `term` the terminal (43_trap),
`busy` a routine that has not returned, `cfg` the parameters (00_scope R8). -/
structure State where
  x : RegFile
  pc : Word
  cond : Cond
  run : RunState
  mem : Memory
  term : Terminal
  busy : Option Busy
  cfg : Config
  deriving DecidableEq, Repr

/-- Why a step is a stop. The faults OF THE BLOCK are no stops of a step: they are next states
with `run` Faulted (60_exceptions R94; log 10). -/
inductive Fault
  /-- Raised by `step` alone, when HALT has run: Halted has no step (30_encoding R45). Safe: the
  hardware never fetches again. -/
  | halted
  /-- Raised by `step` alone, when an instruction has faulted: Faulted has no step (R45,
  60_exceptions R95). Safe: the hardware never fetches again. -/
  | faulted (info : FaultRecord)
  deriving DecidableEq, Repr

/-- Why a step is refused. -/
inductive Refusal
  /-- Raised by an arm of `exec` whose instruction has no meaning yet; no arm of this model does.
  Safe: nothing is claimed of such an instruction. -/
  | notModelled (mnemonic : String)
  deriving DecidableEq, Repr

/-- A terminal that has written nothing, has no scripted answer and accepts all output: a DESIGN
CHOICE for `State.reset` (log 6, 7, 8). -/
def Terminal.initial : Terminal where
  polls := []
  freePolls := 0
  reads := []
  outLeft := none
  out := []
  flushed := 0

/-- The start of a run (70_reset R105, 10_state R27) with parameters `cfg`, environment `term` and
the memory the loader left. -/
def State.start (cfg : Config) (term : Terminal) (mem : Memory) : State where
  x := cfg.gprReset
  pc := 0x3000
  cond := .Z
  run := .running
  mem := mem
  term := term
  busy := none
  cfg := cfg

/-- The start of a run with the default parameters and no image loaded (R27, R103, R105). The
general registers at zero are a DESIGN CHOICE (log 5); `State.start` takes them as a parameter. -/
def State.reset : State := State.start Config.default Terminal.initial []

end Sys2Proof.Machine
end

