-- ==== Sys2Proof/Machine/Memory.lean ====
section
/-! DEFINITION. Reading and writing one cell of memory, and the canonical form of the list
(20_memory R28, R29, R33, R36). -/

namespace Sys2Proof.Machine

/-- What a cell that nothing has written holds (70_reset R103: zero-initialized). -/
def Memory.blankCell : Word := 0x0000

/-- The content of the cell at `a`. Every address exists (R29). -/
def Memory.read : Memory → Word → Word
  | [], _ => Memory.blankCell
  | (k, v) :: m, a => if k = a.toNat then v else Memory.read m a

/-- Store `v` in the cell at `a`, keeping the canonical form: a cell that holds what a blank cell
holds is not listed. -/
def Memory.write : Memory → Word → Word → Memory
  | [], a, v => if v = Memory.blankCell then [] else [(a.toNat, v)]
  | (k, u) :: m, a, v =>
    if a.toNat < k then
      if v = Memory.blankCell then (k, u) :: m else (a.toNat, v) :: (k, u) :: m
    else if k = a.toNat then
      if v = Memory.blankCell then m else (a.toNat, v) :: m
    else (k, u) :: Memory.write m a v

/-- The canonical form: addresses strictly rising, inside the address space, no blank cell
listed. Two memories in this form with the same contents are the same list. -/
abbrev Memory.wf (m : Memory) : Prop :=
  m.Pairwise (fun c d => c.1 < d.1) ∧ ∀ c ∈ m, c.1 < 0x10000 ∧ c.2 ≠ Memory.blankCell

end Sys2Proof.Machine
end

