-- ==== Sys2Proof/Machine/Ops.lean ====
section
/-! DEFINITION. The operations the meanings share: registers, state updates, the terminal, the
memory primitives with the keyboard's side effects, fault entry and halt (00_scope R12 to R14;
20_memory; 60_exceptions R94). -/

namespace Sys2Proof.Machine

/-- `x[i]` (R12). -/
def RegFile.get (x : RegFile) : Reg → Word
  | .r0 => x.r0
  | .r1 => x.r1
  | .r2 => x.r2
  | .r3 => x.r3
  | .r4 => x.r4
  | .r5 => x.r5
  | .r6 => x.r6
  | .r7 => x.r7

/-- `x[i] <- v` (R12). -/
def RegFile.set (x : RegFile) (i : Reg) (v : Word) : RegFile :=
  match i with
  | .r0 => { x with r0 := v }
  | .r1 => { x with r1 := v }
  | .r2 => { x with r2 := v }
  | .r3 => { x with r3 := v }
  | .r4 => { x with r4 := v }
  | .r5 => { x with r5 := v }
  | .r6 => { x with r6 := v }
  | .r7 => { x with r7 := v }

def State.reg (s : State) (i : Reg) : Word := RegFile.get s.x i

def State.setReg (i : Reg) (v : Word) (s : State) : State := { s with x := RegFile.set s.x i v }

def State.setPc (v : Word) (s : State) : State := { s with pc := v }

def State.setCond (c : Cond) (s : State) : State := { s with cond := c }

def State.setRun (r : RunState) (s : State) : State := { s with run := r }

def State.setMem (m : Memory) (s : State) : State := { s with mem := m }

def State.setTerm (t : Terminal) (s : State) : State := { s with term := t }

def State.setBusy (b : Option Busy) (s : State) : State := { s with busy := b }

/-! ### Bytes of a word -/

/-- `zext_16` of a byte (R11). -/
def zext (b : Byte) : Word := b.setWidth 16

/-- Bits 7:0 of a word. -/
def lowByte (w : Word) : Byte := w.extractLsb' 0 8

/-- Bits 15:8 of a word. -/
def highByte (w : Word) : Byte := w.extractLsb' 8 8

/-! ### The terminal -/

/-- `poll_char()` (R38): the next answer, a byte or none. A polled byte is consumed (D7). -/
def pollChar (s : State) : Option Byte × State :=
  match s.term.polls with
  | c :: rest => (c, s.setTerm { s.term with polls := rest })
  | [] => (Config.freePoll s.term.freePolls,
      s.setTerm { s.term with freePolls := s.term.freePolls + 1 })

/-- `read_char_blocking()` (43_trap R82, R89): the next answer, or none while the terminal has
given no answer. An answer is consumed. -/
def readCharBlocking (s : State) : Option ReadAnswer × State :=
  match s.term.reads with
  | c :: rest => (some c, s.setTerm { s.term with reads := rest })
  | [] => (none, s)

/-- One output operation is accepted: one less is left. -/
def Terminal.accept (t : Terminal) : Terminal := { t with outLeft := t.outLeft.map (· - 1) }

/-- `write_char(b)` (R83): append one byte to the output; none is an I/O error (R89). -/
def writeChar (b : Byte) (s : State) : Option State :=
  match s.term.outLeft with
  | some 0 => none
  | _ => some (s.setTerm { s.term.accept with out := s.term.out ++ [b] })

/-- `write_char` of each byte in turn, up to the first I/O error. The flag says whether every one
was accepted; bytes written before an error remain (R89). -/
def writeChars : List Byte → State → Bool × State
  | [], s => (true, s)
  | b :: bs, s =>
    match writeChar b s with
    | none => (false, s)
    | some s' => writeChars bs s'

/-- `flush(out)` (R87): every byte written so far reaches the terminal; none is an I/O error
(R89). -/
def flushOut (s : State) : Option State :=
  match s.term.outLeft with
  | some 0 => none
  | _ => some (s.setTerm { s.term.accept with flushed := s.term.out.length })

/-! ### Memory access -/

/-- The keyboard status cell (20_memory R35). -/
def kbsr : Word := 0xFE00

/-- The keyboard data cell (20_memory R35). -/
def kbdr : Word := 0xFE02

/-- `KbsrPoll()` (R39). -/
def kbsrPoll (s : State) : State :=
  let (c, s1) := pollChar s
  match c with
  | some c => s1.setMem ((s1.mem.write kbsr 0x8000).write kbdr (zext c))
  | none =>
    match s1.cfg.kbsrEmptyPoll with
    | .clear => s1.setMem (s1.mem.write kbsr 0x0000)
    | .retain => s1

/-- `KbdrConsume()` (R40). -/
def kbdrConsume (s : State) : State := s.setMem (s.mem.write kbsr (s.mem.read kbsr &&& 0x7FFF))

/-- `MemRead(a, 1)` (R37): the poll of 0xFE00 before the value is taken, the clearing by 0xFE02
after. -/
def memRead (a : Word) (s : State) : Word × State :=
  let s1 := if a = kbsr then kbsrPoll s else s
  let v := s1.mem.read a
  (v, if a = kbdr then kbdrConsume s1 else s1)

/-- `MemWrite(a, 1, v)` (R36): an ordinary write at every address. -/
def memWrite (a v : Word) (s : State) : State := s.setMem (s.mem.write a v)

/-! ### Faults and halt -/

/-- The fault codes (60_exceptions R92). -/
def FaultKind.code : FaultKind → Nat
  | .reservedInstruction => 1
  | .unknownTrapVector => 2
  | .illegalEncoding => 3
  | .terminalIOError => 4

/-- `code` of the record (R94). -/
def FaultRecord.code (r : FaultRecord) : Nat := r.kind.code

/-- `opcode` of the record: bits 15:12 of the word (R94). -/
def FaultRecord.opcode (r : FaultRecord) : BitVec 4 := opcodeOf r.word

/-- `vect` of the record: bits 7:0 of the word of a TRAP (R94). -/
def FaultRecord.vect (r : FaultRecord) : Option Byte :=
  if r.opcode = 0b1111#4 then some (vectorOf r.word) else none

/-- `raise Fault(kind, info)` (00_scope R14, 60_exceptions R94): the run state becomes Faulted with
the record, and nothing else changes. The record's pc is A, the address of the instruction, which
is one less than the incremented pc (R45). -/
def raiseFault (k : FaultKind) (w : Word) (s : State) : State :=
  s.setRun (.faulted ⟨k, s.pc - 1, w⟩)

/-- `halt` (00_scope R14). -/
def haltRun (s : State) : State := s.setRun .halted

/-- Under STRICT_FIXED_BITS an instruction whose fixed bits deviate faults before any write (R52,
R96); otherwise its effect `t` happens. -/
def checkFixedBits (i : Instr) (s t : State) : State :=
  if s.cfg.strictFixedBits && !i.wellFormed then raiseFault .illegalEncoding (encode i) s else t

end Sys2Proof.Machine
end

