-- ==== Sys2Proof/Machine/FaultOps.lean ====
section
/-! DEFINITION. RTI and the reserved opcode 1101: both take the fault ReservedInstruction
(44_fault_opcodes). There is no return from a fault to model (60_exceptions R95). -/

namespace Sys2Proof.Machine

/-- RTI (R90). -/
def execRti (low : BitVec 12) (s : State) : Host.Outcome State Fault Refusal :=
  .next (raiseFault .reservedInstruction (encode (.rti low)) s)

/-- The reserved opcode (R91). -/
def execReserved (low : BitVec 12) (s : State) : Host.Outcome State Fault Refusal :=
  .next (raiseFault .reservedInstruction (encode (.reserved low)) s)

end Sys2Proof.Machine
end

