-- ==== Sys2Proof/Machine/Operands.lean ====
section
/-! DEFINITION. The operand forms: immediates and effective addresses (00_scope R11; 30_encoding
R50; 42_load_store R72). -/

namespace Sys2Proof.Machine

/-- `sext_N` of an N-bit field (R11). -/
def sext {n : Nat} (v : BitVec n) : Word := v.signExtend 16

/-- PC-relative, 9-bit offset: `pc + sext_9(PCoffset9)` with the incremented pc (R72, R66). -/
def pcRel9 (off9 : BitVec 9) (s : State) : Word := s.pc + sext off9

/-- PC-relative, 11-bit offset, of JSR (R69). -/
def pcRel11 (off11 : BitVec 11) (s : State) : Word := s.pc + sext off11

/-- Base + offset: `x[BaseR] + sext_6(offset6)` (R72). -/
def baseOff6 (base : Reg) (off6 : BitVec 6) (s : State) : Word := s.reg base + sext off6

end Sys2Proof.Machine
end

