-- ==== Sys2Proof/Machine/Flags.lean ====
section
/-! DEFINITION. The condition flags: how a result sets them and how BR reads them (10_state R18,
R19; 41_control R67). -/

namespace Sys2Proof.Machine

/-- The flag a value sets (R18): N if bit 15 is set, else Z if the value is 0, else P. -/
def condOf (v : Word) : Cond :=
  if v.getLsbD 15 then .N else if v = 0x0000 then .Z else .P

/-- `setcc(v)` (R18). -/
def setcc (v : Word) (s : State) : State := s.setCond (condOf v)

/-- `x[DR] <- v; setcc(v)`, the ending of every flag-setting instruction (R19). -/
def writeResult (dr : Reg) (v : Word) (s : State) : State := setcc v (s.setReg dr v)

/-- Whether a BR with condition bits n, z, p is taken (R67). -/
def branchTaken (n z p : Bool) (c : Cond) : Bool :=
  match c with
  | .N => n
  | .Z => z
  | .P => p

end Sys2Proof.Machine
end

