-- ==== Sys2Proof/Machine/LoadStore.lean ====
section
/-! DEFINITION. LD, LDI, LDR, LEA, ST, STI and STR (42_load_store). -/

namespace Sys2Proof.Machine

/-- Read the cell at `a` into DR and set the flags from the value. -/
def loadInto (dr : Reg) (a : Word) (s : State) : State :=
  let (v, s1) := memRead a s
  writeResult dr v s1

/-- LD (R73). -/
def execLd (dr : Reg) (off9 : BitVec 9) (s : State) : Host.Outcome State Fault Refusal :=
  .next (loadInto dr (pcRel9 off9 s) s)

/-- LDI (R74): the pointer is read first, then the data. -/
def execLdi (dr : Reg) (off9 : BitVec 9) (s : State) : Host.Outcome State Fault Refusal :=
  let (p, s1) := memRead (pcRel9 off9 s) s
  .next (loadInto dr p s1)

/-- LDR (R75). -/
def execLdr (dr base : Reg) (off6 : BitVec 6) (s : State) : Host.Outcome State Fault Refusal :=
  .next (loadInto dr (baseOff6 base off6 s) s)

/-- LEA (R76): no memory access; the flags are set from the address. -/
def execLea (dr : Reg) (off9 : BitVec 9) (s : State) : Host.Outcome State Fault Refusal :=
  .next (writeResult dr (pcRel9 off9 s) s)

/-- ST (R77). -/
def execSt (sr : Reg) (off9 : BitVec 9) (s : State) : Host.Outcome State Fault Refusal :=
  .next (memWrite (pcRel9 off9 s) (s.reg sr) s)

/-- STI (R78): the pointer is read, with the keyboard's side effects, before the write. -/
def execSti (sr : Reg) (off9 : BitVec 9) (s : State) : Host.Outcome State Fault Refusal :=
  let (p, s1) := memRead (pcRel9 off9 s) s
  .next (memWrite p (s1.reg sr) s1)

/-- STR (R79). -/
def execStr (sr base : Reg) (off6 : BitVec 6) (s : State) : Host.Outcome State Fault Refusal :=
  .next (memWrite (baseOff6 base off6 s) (s.reg sr) s)

end Sys2Proof.Machine
end

