-- ==== Sys2Proof/Machine/Operate.lean ====
section
/-! DEFINITION. ADD, AND and NOT (40_operate). -/

namespace Sys2Proof.Machine

/-- ADD, register mode (R63). -/
def execAddReg (dr sr1 : Reg) (fx : BitVec 2) (sr2 : Reg) (s : State) :
    Host.Outcome State Fault Refusal :=
  .next (checkFixedBits (.addReg dr sr1 fx sr2) s (writeResult dr (s.reg sr1 + s.reg sr2) s))

/-- ADD, immediate mode (R63). -/
def execAddImm (dr sr1 : Reg) (imm5 : BitVec 5) (s : State) : Host.Outcome State Fault Refusal :=
  .next (writeResult dr (s.reg sr1 + sext imm5) s)

/-- AND, register mode (R64). -/
def execAndReg (dr sr1 : Reg) (fx : BitVec 2) (sr2 : Reg) (s : State) :
    Host.Outcome State Fault Refusal :=
  .next (checkFixedBits (.andReg dr sr1 fx sr2) s (writeResult dr (s.reg sr1 &&& s.reg sr2) s))

/-- AND, immediate mode (R64). -/
def execAndImm (dr sr1 : Reg) (imm5 : BitVec 5) (s : State) : Host.Outcome State Fault Refusal :=
  .next (writeResult dr (s.reg sr1 &&& sext imm5) s)

/-- NOT (R65). -/
def execNot (dr sr : Reg) (fx : BitVec 6) (s : State) : Host.Outcome State Fault Refusal :=
  .next (checkFixedBits (.not dr sr fx) s (writeResult dr (~~~(s.reg sr)) s))

end Sys2Proof.Machine
end

