-- ==== Sys2Proof/Machine/Control.lean ====
section
/-! DEFINITION. BR, JMP, JSR and JSRR (41_control). In every meaning `s.pc` is the incremented pc
(30_encoding R45). -/

namespace Sys2Proof.Machine

/-- BR (R67). -/
def execBr (n z p : Bool) (off9 : BitVec 9) (s : State) : Host.Outcome State Fault Refusal :=
  .next (if branchTaken n z p s.cond then s.setPc (pcRel9 off9 s) else s)

/-- JMP (R68). -/
def execJmp (fxHi : BitVec 3) (base : Reg) (fxLo : BitVec 6) (s : State) :
    Host.Outcome State Fault Refusal :=
  .next (checkFixedBits (.jmp fxHi base fxLo) s (s.setPc (s.reg base)))

/-- `x[7] <- pc`, the link of JSR, JSRR and TRAP (R69, R70, R80). -/
def linkR7 (s : State) : State := s.setReg .r7 s.pc

/-- JSR (R69). -/
def execJsr (off11 : BitVec 11) (s : State) : Host.Outcome State Fault Refusal :=
  .next ((linkR7 s).setPc (pcRel11 off11 s))

/-- JSRR (R70): the base is read AFTER the link is written, so JSRR R7 falls through (C7, log
14). -/
def execJsrr (fxHi : BitVec 2) (base : Reg) (fxLo : BitVec 6) (s : State) :
    Host.Outcome State Fault Refusal :=
  .next (checkFixedBits (.jsrr fxHi base fxLo) s ((linkR7 s).setPc ((linkR7 s).reg base)))

end Sys2Proof.Machine
end

