-- ==== Sys2Proof/Machine/Trap.lean ====
section
/-! DEFINITION. TRAP and the six routines of the trap unit (43_trap). A routine that has to wait,
or whose string does not end within one lap of memory, leaves the TRAP unfinished: `busy` holds
the rest of it, and the next step goes on with it (R84, R86, R89; log 7, 9). -/

namespace Sys2Proof.Machine

/-- What the trap unit answers (R80), or that the routine has not returned. -/
inductive TrapResult
  | ok
  | halt
  | fault (k : FaultKind)
  | unfinished (work : TrapWork)
  deriving DecidableEq, Repr

/-- The six routines (R81). -/
inductive TrapRoutine
  | getc
  | out
  | puts
  | inp
  | putsp
  | halt
  deriving DecidableEq, Repr

/-- The routine an 8-bit vector selects (R81). -/
def routineOf (v : Byte) : Option TrapRoutine :=
  if v = 0x20 then some .getc
  else if v = 0x21 then some .out
  else if v = 0x22 then some .puts
  else if v = 0x23 then some .inp
  else if v = 0x24 then some .putsp
  else if v = 0x25 then some .halt
  else none

/-- GETC from its blocking read on (R82). -/
def getcRead (s : State) : TrapResult × State :=
  match readCharBlocking s with
  | (none, s1) => (.unfinished .getc, s1)
  | (some .ioError, s1) => (.fault .terminalIOError, s1)
  | (some (.byte c), s1) => (.ok, s1.setReg .r0 (zext c))

/-- IN from its blocking read on (R85): read, echo, then R0 and the flags. -/
def inRead (s : State) : TrapResult × State :=
  match readCharBlocking s with
  | (none, s1) => (.unfinished .inEcho, s1)
  | (some .ioError, s1) => (.fault .terminalIOError, s1)
  | (some (.byte c), s1) =>
    match writeChar c s1 with
    | none => (.fault .terminalIOError, s1)
    | some s2 => (.ok, writeResult .r0 (zext c) s2)

/-- What PUTS writes for one word, and whether the string ends there (R84). -/
def putsEmit (ch : Word) : List Byte × Bool :=
  if ch = 0x0000 then ([], true) else ([lowByte ch], false)

/-- What PUTSP writes for one word, and whether the string ends there (R86). -/
def putspEmit (stop : PutspStop) (wd : Word) : List Byte × Bool :=
  match stop with
  | .zeroWord =>
    if wd = 0x0000 then ([], true)
    else if highByte wd ≠ 0 then ([lowByte wd, highByte wd], false) else ([lowByte wd], false)
  | .zeroByte =>
    if lowByte wd = 0 then ([], true)
    else if highByte wd = 0 then ([lowByte wd], true) else ([lowByte wd, highByte wd], false)

/-- The loop of PUTS and PUTSP over at most `fuel` words from address `a` (R84, R86). `emit` says
what a word writes; `rest` names the routine that goes on at an address. -/
def stringLoop (emit : Word → List Byte × Bool) (rest : Word → TrapWork) :
    Nat → Word → State → TrapResult × State
  | 0, a, s => (.unfinished (rest a), s)
  | fuel + 1, a, s =>
    let (wd, s1) := memRead a s
    match writeChars (emit wd).1 s1 with
    | (false, s2) => (.fault .terminalIOError, s2)
    | (true, s2) => if (emit wd).2 then (.ok, s2) else stringLoop emit rest fuel (a + 1) s2

/-- How many words one step reads of a string before it goes on in the next step: a whole lap of
the address space (log 9). -/
def lap : Nat := 0x10000

/-- Go on with a routine. -/
def continueWork (k : TrapWork) (s : State) : TrapResult × State :=
  match k with
  | .getc => getcRead s
  | .inEcho => inRead s
  | .puts a => stringLoop putsEmit .puts lap a s
  | .putsp a => stringLoop (putspEmit s.cfg.putspStop) .putsp lap a s

/-- OUT (R83). -/
def outRoutine (s : State) : TrapResult × State :=
  match writeChar (lowByte (s.reg .r0)) s with
  | none => (.fault .terminalIOError, s)
  | some s1 => (.ok, s1)

/-- IN from its prompt on (R85). -/
def inRoutine (s : State) : TrapResult × State :=
  match writeChars s.cfg.inPrompt s with
  | (false, s1) => (.fault .terminalIOError, s1)
  | (true, s1) => continueWork .inEcho s1

/-- HALT (R87). -/
def haltRoutine (s : State) : TrapResult × State :=
  match flushOut s with
  | none => (.fault .terminalIOError, s)
  | some s1 => (.halt, s1)

/-- `TrapUnit(v)` (R81, R88). -/
def trapUnit (v : Byte) (s : State) : TrapResult × State :=
  match routineOf v with
  | some .getc => continueWork .getc s
  | some .out => outRoutine s
  | some .puts => continueWork (.puts (s.reg .r0)) s
  | some .inp => inRoutine s
  | some .putsp => continueWork (.putsp (s.reg .r0)) s
  | some .halt => haltRoutine s
  | none => (.fault .unknownTrapVector, s)

/-- What the TRAP step does with the trap unit's answer (R80). `w` is the instruction word. -/
def finishTrap (w : Word) (r : TrapResult × State) : State :=
  match r.1 with
  | .ok => r.2.setBusy none
  | .halt => haltRun (r.2.setBusy none)
  | .fault k => raiseFault k w (r.2.setBusy none)
  | .unfinished work => r.2.setBusy (some ⟨w, work⟩)

/-- TRAP (R80): the link first, for every vector, then the routine. -/
def execTrap (fx : BitVec 4) (vect : Byte) (s : State) : Host.Outcome State Fault Refusal :=
  .next (checkFixedBits (.trap fx vect) s
    (finishTrap (encode (.trap fx vect)) (trapUnit vect (linkR7 s))))

/-- The next step of a TRAP that has not returned (R89: the TRAP step waits). -/
def resumeTrap (b : Busy) (s : State) : State := finishTrap b.word (continueWork b.work s)

end Sys2Proof.Machine
end

