-- ==== Sys2Proof/Machine/Dispatch.lean ====
section
/-! DEFINITION. `Execute(op, w, A)` (30_encoding R45, R47): one arm per instruction. -/

namespace Sys2Proof.Machine

/-- The effect of one decoded instruction on a state whose pc is already incremented. -/
def exec (i : Instr) (s : State) : Host.Outcome State Fault Refusal :=
  match i with
  | .addReg dr sr1 fx sr2 => Sys2Proof.Machine.execAddReg dr sr1 fx sr2 s
  | .addImm dr sr1 imm5 => Sys2Proof.Machine.execAddImm dr sr1 imm5 s
  | .andReg dr sr1 fx sr2 => Sys2Proof.Machine.execAndReg dr sr1 fx sr2 s
  | .andImm dr sr1 imm5 => Sys2Proof.Machine.execAndImm dr sr1 imm5 s
  | .not dr sr fx => Sys2Proof.Machine.execNot dr sr fx s
  | .br n z p off9 => Sys2Proof.Machine.execBr n z p off9 s
  | .jmp fxHi base fxLo => Sys2Proof.Machine.execJmp fxHi base fxLo s
  | .jsr off11 => Sys2Proof.Machine.execJsr off11 s
  | .jsrr fxHi base fxLo => Sys2Proof.Machine.execJsrr fxHi base fxLo s
  | .ld dr off9 => Sys2Proof.Machine.execLd dr off9 s
  | .ldi dr off9 => Sys2Proof.Machine.execLdi dr off9 s
  | .ldr dr base off6 => Sys2Proof.Machine.execLdr dr base off6 s
  | .lea dr off9 => Sys2Proof.Machine.execLea dr off9 s
  | .st sr off9 => Sys2Proof.Machine.execSt sr off9 s
  | .sti sr off9 => Sys2Proof.Machine.execSti sr off9 s
  | .str sr base off6 => Sys2Proof.Machine.execStr sr base off6 s
  | .trap fx vect => Sys2Proof.Machine.execTrap fx vect s
  | .rti low => Sys2Proof.Machine.execRti low s
  | .reserved low => Sys2Proof.Machine.execReserved low s

end Sys2Proof.Machine
end

