-- ==== Sys2Proof/Machine/Fetch.lean ====
section
/-! DEFINITION. The instruction fetch (30_encoding R45). -/

namespace Sys2Proof.Machine

/-- `w <- MemRead(pc, 1); pc <- pc + 1`. The fetch has the keyboard's side effects (20_memory
R41). -/
def fetch (s : State) : Word × State :=
  let (w, s1) := memRead s.pc s
  (w, s1.setPc (s.pc + 1))

end Sys2Proof.Machine
end

