-- ==== Sys2Proof/Machine/Step.lean ====
section
/-! DEFINITION. One step of the block (30_encoding R45), and the host's way to place an
instruction. -/

namespace Sys2Proof.Machine

/-- `Step()` (R45). Halted and Faulted have no step: they answer a fault (log 10). A TRAP that has
not returned goes on (log 7, 9). Otherwise one instruction is fetched, decoded and executed. -/
def step (s : State) : Host.Outcome State Fault Refusal :=
  match s.run with
  | .halted => .fault .halted
  | .faulted info => .fault (.faulted info)
  | .running =>
    match s.busy with
    | some b => .next (resumeTrap b s)
    | none => exec (decode (fetch s).1) (fetch s).2

/-- `s` with an instruction word in the cell the next step fetches, running and with no TRAP in
progress. It stands for the loader placing the word (log 18). The cell 0xFE00 keeps a stored word
over its own fetch only when a poll finds no key and the status is retained (20_memory R39), so
for that pc alone the next poll and that parameter are set too. -/
def State.withFetchWord (s : State) (nbits w : Nat) : State :=
  { s with
    run := .running
    busy := none
    mem := s.mem.write s.pc (BitVec.ofNat 16 (w % 2 ^ nbits))
    term := if s.pc = kbsr then { s.term with polls := none :: s.term.polls } else s.term
    cfg := if s.pc = kbsr then { s.cfg with kbsrEmptyPoll := .retain } else s.cfg }

end Sys2Proof.Machine
end

