-- ==== Sys2Proof/Machine/Loader.lean ====
section
/-! DEFINITION. The image loader, the way memory gets its contents before a run (70_reset R102 to
R105). -/

namespace Sys2Proof.Machine

/-- An image: its origin and its payload words (R102). -/
structure Image where
  origin : Word
  payload : List Word
  deriving DecidableEq, Repr

/-- Why no run starts (R104). -/
inductive ImageLoadError
  | unreadable
  | truncated
  | doesNotFit
  deriving DecidableEq, Repr

/-- The bytes as big-endian 16-bit words; none if their number is odd (R102, R104). -/
def bigEndianWords : List Byte → Option (List Word)
  | [] => some []
  | [_] => none
  | hi :: lo :: rest => (bigEndianWords rest).map ((hi ++ lo) :: ·)

/-- Read one image file; `none` is a file that is missing or unreadable (R102, R104). -/
def parseImage (file : Option (List Byte)) : Except ImageLoadError Image :=
  match file with
  | none => .error .unreadable
  | some bytes =>
    match bigEndianWords bytes with
    | none => .error .truncated
    | some [] => .error .truncated
    | some (o :: ws) =>
      if o.toNat + ws.length > 0x10000 then .error .doesNotFit else .ok ⟨o, ws⟩

/-- `MemWrite(a + k, 1, p_k)` for each payload word in file order (R103). -/
def loadWords : Word → List Word → Memory → Memory
  | _, [], m => m
  | a, w :: ws, m => loadWords (a + 1) ws (m.write a w)

/-- Load the images one at a time, in argument order, stopping at the first that fails (R103,
R104). -/
def loadImages : List (Option (List Byte)) → Memory → Except ImageLoadError Memory
  | [], m => .ok m
  | f :: fs, m =>
    match parseImage f with
    | .error e => .error e
    | .ok im => loadImages fs (loadWords im.origin im.payload m)

/-- From power-on to the start of a run: memory all zero, the images, then the start state (R103
to R105). -/
def boot (cfg : Config) (term : Terminal) (files : List (Option (List Byte))) :
    Except ImageLoadError State :=
  (loadImages files []).map (State.start cfg term)

end Sys2Proof.Machine
end

