-- ==== Sys2Proof/Safety.lean ====
section
/-! DEFINITION. How a run ends, and what a safe run is (70_reset R107). -/

namespace Sys2Proof.Machine

/-- Exactly `n` steps from `s` reach `t`. -/
def Reaches (n : Nat) (s t : State) : Prop := core.run n s = .next t

/-- The run from `s` ends Halted, in `t`, after `n` steps: the normal end (R107). -/
def EndsHalted (n : Nat) (s t : State) : Prop := Reaches n s t ∧ t.run = .halted

/-- The run from `s` ends Faulted with record `info`, in `t`, after `n` steps (R107). -/
def EndsFaulted (n : Nat) (s t : State) (info : FaultRecord) : Prop :=
  Reaches n s t ∧ t.run = .faulted info

/-- The run from `s` never ends (R107: a non-terminating run, not a stop). -/
def NeverEnds (s : State) : Prop := ∀ n, ∃ t, Reaches n s t ∧ t.run = .running

/-- A safe run: whatever it does, it does not end Faulted. -/
def SafeRun (s : State) : Prop := ∀ n t info, ¬ EndsFaulted n s t info

end Sys2Proof.Machine
end

