-- ==== Sys2Proof/Certificates/Slice0/Obligations.lean ====
section
/-! DEFINITION. The statements about the model, each made from the rules of spec/. First the words
the statements share (namespace Spec), then one definition per statement.

Conventions. `exec i s` is the effect of instruction `i` on a state whose pc is already A + 1
(30_encoding R45), so `s.pc` is the incremented pc and `s.pc - 1` is A. A statement that ends in
an equation `exec i s = .next { s with … }` says the whole result: every field it does not name is
unchanged, so it is the instruction's frame as well. -/

namespace Sys2Proof.Spec

open Sys2Proof.Machine

/-! ### Shared words -/

/-- The fixed bits do not stop the instruction: they are not checked, or they are right (R52). -/
def FixedOk (s : State) (right : Prop) : Prop := s.cfg.strictFixedBits = false ∨ right

/-- The state after fault `k` at word `w`: only the run state changes (R94). -/
def faulted (k : FaultKind) (w : Word) (s : State) : State :=
  { s with run := .faulted ⟨k, s.pc - 1, w⟩ }

/-- The state after `x[dr] <- v; setcc(v)`. -/
def result (dr : Reg) (v : Word) (s : State) : State :=
  { s with x := RegFile.set s.x dr v, cond := condOf v }

/-- The state after the link `x[7] <- pc`. -/
def linked (s : State) : State := { s with x := RegFile.set s.x .r7 s.pc }

/-- The terminal accepts `n` more output operations. -/
def Accepts (t : Terminal) (n : Nat) : Prop := ∀ k, t.outLeft = some k → n ≤ k

/-- The terminal after it accepted the bytes `bs`. -/
def wrote (t : Terminal) (bs : List Byte) : Terminal :=
  { t with out := t.out ++ bs, outLeft := t.outLeft.map (· - bs.length) }

/-! ### The opcode table -/

/-- A row of spec/opcode_table.json: its test and, where it has one, its strict test. A row
without a strict test repeats its plain test. -/
structure Row where
  mask : Word
  value : Word
  strictMask : Word
  strictValue : Word
  deriving DecidableEq, Repr

/-- The 19 rows, in the order of the file. -/
def rows : List Row :=
  [⟨0xF020, 0x1000, 0xF038, 0x1000⟩, ⟨0xF020, 0x1020, 0xF020, 0x1020⟩,
   ⟨0xF020, 0x5000, 0xF038, 0x5000⟩, ⟨0xF020, 0x5020, 0xF020, 0x5020⟩,
   ⟨0xF000, 0x9000, 0xF03F, 0x903F⟩, ⟨0xF000, 0x0000, 0xF000, 0x0000⟩,
   ⟨0xF000, 0xC000, 0xFE3F, 0xC000⟩, ⟨0xF800, 0x4800, 0xF800, 0x4800⟩,
   ⟨0xF800, 0x4000, 0xFE3F, 0x4000⟩, ⟨0xF000, 0x2000, 0xF000, 0x2000⟩,
   ⟨0xF000, 0xA000, 0xF000, 0xA000⟩, ⟨0xF000, 0x6000, 0xF000, 0x6000⟩,
   ⟨0xF000, 0xE000, 0xF000, 0xE000⟩, ⟨0xF000, 0x3000, 0xF000, 0x3000⟩,
   ⟨0xF000, 0xB000, 0xF000, 0xB000⟩, ⟨0xF000, 0x7000, 0xF000, 0x7000⟩,
   ⟨0xF000, 0xF000, 0xFF00, 0xF000⟩, ⟨0xF000, 0x8000, 0xF000, 0x8000⟩,
   ⟨0xF000, 0xD000, 0xF000, 0xD000⟩]

/-- Which of the 19 rows an instruction belongs to. -/
def rowOf : Instr → Nat
  | .addReg .. => 0
  | .addImm .. => 1
  | .andReg .. => 2
  | .andImm .. => 3
  | .not .. => 4
  | .br .. => 5
  | .jmp .. => 6
  | .jsr .. => 7
  | .jsrr .. => 8
  | .ld .. => 9
  | .ldi .. => 10
  | .ldr .. => 11
  | .lea .. => 12
  | .st .. => 13
  | .sti .. => 14
  | .str .. => 15
  | .trap .. => 16
  | .rti .. => 17
  | .reserved .. => 18

/-- The rows each opcode value may select, in the order of the values 0 to 15: the map of R47. -/
def handlerRows : List (List Nat) :=
  [[5], [0, 1], [9], [13], [7, 8], [2, 3], [11], [15], [17], [4], [10], [14], [6], [18], [12], [16]]

/-- The index of a register, 0 to 7 (R15). -/
def regIndex : Reg → Nat
  | .r0 => 0
  | .r1 => 1
  | .r2 => 2
  | .r3 => 3
  | .r4 => 4
  | .r5 => 5
  | .r6 => 6
  | .r7 => 7

/-! ### Tables over all instructions -/

/-- The instruction is stopped by the fixed-bit check in this state (R52). -/
def Illegal (i : Instr) (s : State) : Prop :=
  s.cfg.strictFixedBits = true ∧ i.wellFormed = false

/-- The vector selects a routine (R81). -/
def KnownVector (v : Byte) : Prop := 0x20 ≤ v.toNat ∧ v.toNat ≤ 0x25

/-- R22: the pc an instruction leaves, when the fixed-bit check does not stop it. -/
def pcAfter (i : Instr) (s : State) : Word :=
  match i with
  | .br n z p off9 =>
    if (n = true ∧ s.cond = .N) ∨ (z = true ∧ s.cond = .Z) ∨ (p = true ∧ s.cond = .P) then
      s.pc + sext off9
    else s.pc
  | .jmp _ base _ => s.reg base
  | .jsr off11 => s.pc + sext off11
  | .jsrr _ base _ => if base = .r7 then s.pc else s.reg base
  | _ => s.pc

/-- R16: the registers an instruction may write. -/
def writes (i : Instr) (r : Reg) : Prop :=
  match i with
  | .addReg dr _ _ _ => r = dr
  | .addImm dr _ _ => r = dr
  | .andReg dr _ _ _ => r = dr
  | .andImm dr _ _ => r = dr
  | .not dr _ _ => r = dr
  | .ld dr _ => r = dr
  | .ldi dr _ => r = dr
  | .ldr dr _ _ => r = dr
  | .lea dr _ => r = dr
  | .jsr _ => r = .r7
  | .jsrr _ _ _ => r = .r7
  | .trap _ v => r = .r7 ∨ (r = .r0 ∧ (v = 0x20 ∨ v = 0x23))
  | _ => False

/-- R19: the register whose new value sets the flags, for ADD, AND, NOT, LD, LDI, LDR and LEA. -/
def flagSource : Instr → Option Reg
  | .addReg dr _ _ _ => some dr
  | .addImm dr _ _ => some dr
  | .andReg dr _ _ _ => some dr
  | .andImm dr _ _ => some dr
  | .not dr _ _ => some dr
  | .ld dr _ => some dr
  | .ldi dr _ => some dr
  | .ldr dr _ _ => some dr
  | .lea dr _ => some dr
  | _ => none

/-- R77 to R79: the register a store stores. -/
def storeSource : Instr → Option Reg
  | .st sr _ => some sr
  | .sti sr _ => some sr
  | .str sr _ _ => some sr
  | _ => none

/-- R77 to R79: the address a store stores to, computed as its meaning computes it. -/
def storeAddress (i : Instr) (s : State) : Option Word :=
  match i with
  | .st _ off9 => some (pcRel9 off9 s)
  | .sti _ off9 => some (memRead (pcRel9 off9 s) s).1
  | .str _ base off6 => some (baseOff6 base off6 s)
  | _ => none

/-! ### The string routines, as the pseudocode of R84 and R86 gives them -/

/-- R84: the PUTS loop from address `a` in state `s` ends with this answer in this state. -/
inductive PutsLoop : Word → State → TrapResult → State → Prop
  | zero {a s} : (memRead a s).1 = 0 → PutsLoop a s .ok (memRead a s).2
  | error {a s} : (memRead a s).1 ≠ 0 →
      writeChar (lowByte (memRead a s).1) (memRead a s).2 = none →
      PutsLoop a s (.fault .terminalIOError) (memRead a s).2
  | next {a s s2 r t} : (memRead a s).1 ≠ 0 →
      writeChar (lowByte (memRead a s).1) (memRead a s).2 = some s2 →
      PutsLoop (a + 1) s2 r t → PutsLoop a s r t

/-- R86: the bytes PUTSP writes for one word. -/
def putspBytes (stop : PutspStop) (wd : Word) : List Byte :=
  match stop with
  | .zeroWord =>
    if wd = 0 then [] else lowByte wd :: if highByte wd = 0 then [] else [highByte wd]
  | .zeroByte =>
    if lowByte wd = 0 then [] else lowByte wd :: if highByte wd = 0 then [] else [highByte wd]

/-- R86: the word ends the string. -/
def PutspEnds (stop : PutspStop) (wd : Word) : Prop :=
  match stop with
  | .zeroWord => wd = 0
  | .zeroByte => lowByte wd = 0 ∨ highByte wd = 0

/-- R86: the PUTSP loop from address `a` in state `s` ends with this answer in this state. -/
inductive PutspLoop (stop : PutspStop) : Word → State → TrapResult → State → Prop
  | ends {a s t} : PutspEnds stop (memRead a s).1 →
      writeChars (putspBytes stop (memRead a s).1) (memRead a s).2 = (true, t) →
      PutspLoop stop a s .ok t
  | error {a s t} : writeChars (putspBytes stop (memRead a s).1) (memRead a s).2 = (false, t) →
      PutspLoop stop a s (.fault .terminalIOError) t
  | next {a s s2 r t} : ¬ PutspEnds stop (memRead a s).1 →
      writeChars (putspBytes stop (memRead a s).1) (memRead a s).2 = (true, s2) →
      PutspLoop stop (a + 1) s2 r t → PutspLoop stop a s r t

/-- A TRAP with word `w` whose routine has this loop: from the state `u` after its first step, the
run reaches the state in which the loop's end leaves the block, or the TRAP is unfinished after
every number of steps. -/
def RunsLoop (w : Word) (u : State) (loop : TrapResult → State → Prop) : Prop :=
  (∃ r t n, loop r t ∧ Reaches n u (finishTrap w (r, t))) ∨
  ((¬ ∃ r t, loop r t) ∧
    ∀ n, ∃ v, Reaches n u v ∧ v.run = .running ∧ ∃ k, v.busy = some ⟨w, k⟩)

/-- The words `ws`, none of them zero, stand from address `a` on, a zero word follows them, and no
cell of them is a keyboard cell. -/
def StringAt (m : Memory) : Word → List Word → Prop
  | a, [] => a ≠ kbsr ∧ a ≠ kbdr ∧ m.read a = 0
  | a, w :: ws => a ≠ kbsr ∧ a ≠ kbdr ∧ m.read a = w ∧ w ≠ 0 ∧ StringAt m (a + 1) ws

/-- R86's condition: every word has a nonzero low byte, and every word but the last also has a
nonzero high byte. -/
def BothReadingsAgree : List Word → Prop
  | [] => True
  | [w] => lowByte w ≠ 0
  | w :: w' :: ws => lowByte w ≠ 0 ∧ highByte w ≠ 0 ∧ BothReadingsAgree (w' :: ws)

/-! ### The invariant -/

/-- The unfinished routine is the one the TRAP's word names (R81). -/
def workFits (b : Busy) : Prop :=
  opcodeOf b.word = 0b1111#4 ∧
  match b.work with
  | .getc => vectorOf b.word = 0x20
  | .inEcho => vectorOf b.word = 0x23
  | .puts _ => vectorOf b.word = 0x22
  | .putsp _ => vectorOf b.word = 0x24

/-- The fault record names an instruction that raises that kind of fault (R92). -/
def recordFits (cfg : Config) (r : FaultRecord) : Prop :=
  match r.kind with
  | .reservedInstruction => r.opcode = 0b1000#4 ∨ r.opcode = 0b1101#4
  | .unknownTrapVector => r.opcode = 0b1111#4 ∧ ¬ KnownVector (vectorOf r.word)
  | .illegalEncoding => cfg.strictFixedBits = true ∧ (decode r.word).wellFormed = false
  | .terminalIOError => r.opcode = 0b1111#4 ∧ KnownVector (vectorOf r.word)

/-- What holds of the state between any two steps. -/
structure Inv (s : State) : Prop where
  /-- Memory is in its canonical form. -/
  memory : s.mem.wf
  /-- An unfinished TRAP belongs to a running block, has written its link, and is the routine its
  word names. -/
  busy : ∀ b, s.busy = some b → s.run = .running ∧ s.reg .r7 = s.pc ∧ workFits b
  /-- A faulted block's record names the instruction before the pc and fits its kind (R92, R94). -/
  fault : ∀ r, s.run = .faulted r → r.pc = s.pc - 1 ∧ recordFits s.cfg r
  /-- No more bytes are flushed than written. -/
  flushed : s.term.flushed ≤ s.term.out.length

/-- `s` without the instruction word that a fault record or an unfinished TRAP keeps. -/
def forgetWord (s : State) : State :=
  { s with
    run := match s.run with
      | .faulted r => .faulted { r with word := 0 }
      | r => r
    busy := s.busy.map fun b => { b with word := 0 } }

end Sys2Proof.Spec

open Sys2Proof Sys2Proof.Machine Sys2Proof.Spec

/-! ## Encoding -/

/-- Decoding an encoded instruction gives it back, with every field at every value. -/
def Obligations.DecodeOfEncodeIsTheInstruction : Prop := ∀ i : Instr, decode (encode i) = i

/-- Encoding a decoded word gives it back: no bit of a word is lost. -/
def Obligations.EncodeOfDecodeIsTheWord : Prop := ∀ w : Word, encode (decode w) = w

/-- R47: every word selects exactly one row, the decoder routes it to a handler of its opcode
value, and under STRICT_FIXED_BITS a word that fails its row's strict test raises
IllegalEncoding. -/
def Obligations.EveryWordSelectsExactlyOneRow : Prop :=
  ∀ w : Word,
    (∃ ixs, handlerRows[(opcodeOf w).toNat]? = some ixs ∧ rowOf (decode w) ∈ ixs) ∧
    (∀ (k : Nat) (r : Row), rows[k]? = some r → (w &&& r.mask = r.value ↔ k = rowOf (decode w))) ∧
    (∃ r, rows[rowOf (decode w)]? = some r ∧
      ∀ s : State, s.cfg.strictFixedBits = true → w &&& r.strictMask ≠ r.strictValue →
        exec (decode w) s = .next (faulted .illegalEncoding w s))

/-- Words written out from the spec's encodings and examples decode to what they stand for. -/
def Obligations.SpecWordsDecodeToTheirInstructions : Prop :=
  decode 0x1042 = .addReg .r0 .r1 0 .r2 ∧ decode 0x103F = .addImm .r0 .r0 0x1F ∧
  decode 0x5070 = .andImm .r0 .r1 0x10 ∧ decode 0x5042 = .andReg .r0 .r1 0 .r2 ∧
  decode 0x927F = .not .r1 .r1 0x3F ∧ decode 0x0402 = .br false true false 2 ∧
  decode 0xC1C0 = .jmp 0 .r7 0 ∧ decode 0x4805 = .jsr 5 ∧ decode 0x4100 = .jsrr 0 .r4 0 ∧
  decode 0x23FF = .ld .r1 0x1FF ∧ decode 0xA405 = .ldi .r2 5 ∧
  decode 0x673E = .ldr .r3 .r4 0x3E ∧ decode 0xE005 = .lea .r0 5 ∧ decode 0x3202 = .st .r1 2 ∧
  decode 0xB202 = .sti .r1 2 ∧ decode 0x7281 = .str .r1 .r2 1 ∧ decode 0xF025 = .trap 0 0x25 ∧
  decode 0x8ABC = .rti 0xABC ∧ decode 0xD123 = .reserved 0x123

/-- R48: the register index fields are the word shifted and masked with 7. -/
def Obligations.RegisterFieldsAreShiftAndMask : Prop :=
  ∀ w : Word,
    regIndex (regHi w) = w.toNat >>> 9 &&& 7 ∧ regIndex (regMid w) = w.toNat >>> 6 &&& 7 ∧
    regIndex (regLo w) = w.toNat &&& 7

/-- R11: sext_N by its formula, for the four widths, and zext_16. -/
def Obligations.ExtensionsFollowTheFormula : Prop :=
  (∀ v : BitVec 5, sext v = if v.getLsbD 4 then (v.setWidth 16 ||| 0xFFFF#16 <<< 5) else v.setWidth 16) ∧
  (∀ v : BitVec 6, sext v = if v.getLsbD 5 then (v.setWidth 16 ||| 0xFFFF#16 <<< 6) else v.setWidth 16) ∧
  (∀ v : BitVec 9, sext v = if v.getLsbD 8 then (v.setWidth 16 ||| 0xFFFF#16 <<< 9) else v.setWidth 16) ∧
  (∀ v : BitVec 11, sext v = if v.getLsbD 10 then (v.setWidth 16 ||| 0xFFFF#16 <<< 11) else v.setWidth 16) ∧
  (∀ b : Byte, zext b = 0x00#8 ++ b)

/-- R52: the fixed bits. Unchecked, they make no difference to what a word does (but for the word
that a fault record or an unfinished TRAP keeps); checked, a deviating word raises IllegalEncoding
before any write, and the required values are those of R49. -/
def Obligations.FixedBitsAreIgnoredOrChecked : Prop :=
  (∀ s : State, s.cfg.strictFixedBits = false →
    (∀ dr sr1 fx sr2, exec (.addReg dr sr1 fx sr2) s = exec (.addReg dr sr1 0b00#2 sr2) s) ∧
    (∀ dr sr1 fx sr2, exec (.andReg dr sr1 fx sr2) s = exec (.andReg dr sr1 0b00#2 sr2) s) ∧
    (∀ dr sr fx, exec (.not dr sr fx) s = exec (.not dr sr 0b111111#6) s) ∧
    (∀ hi base lo, exec (.jmp hi base lo) s = exec (.jmp 0b000#3 base 0b000000#6) s) ∧
    (∀ hi base lo, exec (.jsrr hi base lo) s = exec (.jsrr 0b00#2 base 0b000000#6) s) ∧
    (∀ fx v, ∃ t t', exec (.trap fx v) s = .next t ∧ exec (.trap 0b0000#4 v) s = .next t' ∧
      forgetWord t = forgetWord t')) ∧
  (∀ (i : Instr) (s : State), s.cfg.strictFixedBits = true →
    ((∃ dr sr1 fx sr2, i = .addReg dr sr1 fx sr2 ∧ fx ≠ 0b00#2) ∨
     (∃ dr sr1 fx sr2, i = .andReg dr sr1 fx sr2 ∧ fx ≠ 0b00#2) ∨
     (∃ dr sr fx, i = .not dr sr fx ∧ fx ≠ 0b111111#6) ∨
     (∃ hi base lo, i = .jmp hi base lo ∧ (hi ≠ 0b000#3 ∨ lo ≠ 0b000000#6)) ∨
     (∃ hi base lo, i = .jsrr hi base lo ∧ (hi ≠ 0b00#2 ∨ lo ≠ 0b000000#6)) ∨
     (∃ fx v, i = .trap fx v ∧ fx ≠ 0b0000#4)) →
    exec i s = .next (faulted .illegalEncoding (encode i) s)) ∧
  (∀ (low : BitVec 12) (s : State),
    exec (.rti low) s = .next (faulted .reservedInstruction (encode (.rti low)) s) ∧
    exec (.reserved low) s = .next (faulted .reservedInstruction (encode (.reserved low)) s))

/-! ## Registers, flags and memory -/

/-- From R15: a register reads back the last value written to it, and a write changes no other. -/
def Obligations.RegistersReadBackWhatWasWritten : Prop :=
  ∀ (x : RegFile) (i j : Reg) (v : Word),
    RegFile.get (RegFile.set x i v) j = if j = i then v else RegFile.get x j

/-- R18: setcc sets exactly the one flag its value names, and nothing else. -/
def Obligations.SetccSetsTheFlagOfTheValue : Prop :=
  ∀ (v : Word) (s : State), ∃ c, setcc v s = { s with cond := c } ∧
    (c = .N ↔ v.getLsbD 15 = true) ∧ (c = .Z ↔ v.getLsbD 15 = false ∧ v = 0x0000) ∧
    (c = .P ↔ v.getLsbD 15 = false ∧ v ≠ 0x0000)

/-- R36: a memory write sets its cell and has no other effect, at any address. -/
def Obligations.MemWriteSetsOneCellOnly : Prop :=
  ∀ (a v : Word) (s : State),
    (memWrite a v s = { s with mem := (memWrite a v s).mem }) ∧
    (∀ b, b ≠ a → (memWrite a v s).mem.read b = s.mem.read b) ∧
    (s.mem.wf → (memWrite a v s).mem.read a = v)

/-- R37: a read gives the cell, with the poll before it at 0xFE00 and the clearing after it at
0xFE02, and has no side effect at any other address. -/
def Obligations.MemReadHasTheKeyboardSideEffects : Prop :=
  ∀ s : State,
    (∀ a, a ≠ 0xFE00 → a ≠ 0xFE02 → memRead a s = (s.mem.read a, s)) ∧
    memRead 0xFE00 s = ((kbsrPoll s).mem.read 0xFE00, kbsrPoll s) ∧
    memRead 0xFE02 s = (s.mem.read 0xFE02, kbdrConsume s)

/-- R39: the poll. Its answer is the environment's draw, and a scripted one is consumed; a byte
sets the status word to 0x8000 and stages the byte; no key clears or keeps the status. What
answers beyond the script is a free value (log 6): the clauses hold for every answer. -/
def Obligations.PollSetsStatusAndStagesTheKey : Prop :=
  ∀ s : State, s.mem.wf →
    (∀ c rest, s.term.polls = c :: rest →
      pollChar s = (c, { s with term := { s.term with polls := rest } })) ∧
    (∀ c, (pollChar s).1 = some c →
      kbsrPoll s = { (pollChar s).2 with mem := (kbsrPoll s).mem } ∧
      (kbsrPoll s).mem.read 0xFE00 = 0x8000 ∧ (kbsrPoll s).mem.read 0xFE02 = 0x00#8 ++ c ∧
      ∀ a, a ≠ 0xFE00 → a ≠ 0xFE02 → (kbsrPoll s).mem.read a = s.mem.read a) ∧
    ((pollChar s).1 = none → s.cfg.kbsrEmptyPoll = .clear →
      kbsrPoll s = { (pollChar s).2 with mem := (kbsrPoll s).mem } ∧
      (kbsrPoll s).mem.read 0xFE00 = 0x0000 ∧
      ∀ a, a ≠ 0xFE00 → (kbsrPoll s).mem.read a = s.mem.read a) ∧
    ((pollChar s).1 = none → s.cfg.kbsrEmptyPoll = .retain → kbsrPoll s = (pollChar s).2)

/-- R40: a read of 0xFE02 returns the staged character, clears bit 15 of the status and leaves its
bits 14:0; it does not poll, and the data cell keeps its value. -/
def Obligations.KeyboardDataReadClearsAvailability : Prop :=
  ∀ s : State, s.mem.wf →
    (memRead 0xFE02 s).1 = s.mem.read 0xFE02 ∧
    (memRead 0xFE02 s).2 = { s with mem := (memRead 0xFE02 s).2.mem } ∧
    (memRead 0xFE02 s).2.mem.read 0xFE00 = s.mem.read 0xFE00 &&& 0x7FFF ∧
    ∀ a, a ≠ 0xFE00 → (memRead 0xFE02 s).2.mem.read a = s.mem.read a

/-! ## Operate -/

/-- R63: ADD. -/
def Obligations.AddWritesTheSum : Prop :=
  (∀ dr sr1 fx sr2, encode (.addReg dr sr1 fx sr2) =
    0b0001#4 ++ dr.bits ++ sr1.bits ++ 0#1 ++ fx ++ sr2.bits) ∧
  (∀ dr sr1 imm5, encode (.addImm dr sr1 imm5) = 0b0001#4 ++ dr.bits ++ sr1.bits ++ 1#1 ++ imm5) ∧
  ∀ (s : State) (dr sr1 : Reg),
    (∀ fx sr2, FixedOk s (fx = 0b00#2) →
      exec (.addReg dr sr1 fx sr2) s = .next (result dr (s.reg sr1 + s.reg sr2) s)) ∧
    (∀ imm5, exec (.addImm dr sr1 imm5) s = .next (result dr (s.reg sr1 + sext imm5) s)) ∧
    (∀ fx sr2, s.cfg.strictFixedBits = true → fx ≠ 0b00#2 →
      exec (.addReg dr sr1 fx sr2) s =
        .next (faulted .illegalEncoding (encode (.addReg dr sr1 fx sr2)) s))

/-- R64: AND. -/
def Obligations.AndWritesTheBitwiseAnd : Prop :=
  (∀ dr sr1 fx sr2, encode (.andReg dr sr1 fx sr2) =
    0b0101#4 ++ dr.bits ++ sr1.bits ++ 0#1 ++ fx ++ sr2.bits) ∧
  (∀ dr sr1 imm5, encode (.andImm dr sr1 imm5) = 0b0101#4 ++ dr.bits ++ sr1.bits ++ 1#1 ++ imm5) ∧
  ∀ (s : State) (dr sr1 : Reg),
    (∀ fx sr2, FixedOk s (fx = 0b00#2) →
      exec (.andReg dr sr1 fx sr2) s = .next (result dr (s.reg sr1 &&& s.reg sr2) s)) ∧
    (∀ imm5, exec (.andImm dr sr1 imm5) s = .next (result dr (s.reg sr1 &&& sext imm5) s)) ∧
    (∀ fx sr2, s.cfg.strictFixedBits = true → fx ≠ 0b00#2 →
      exec (.andReg dr sr1 fx sr2) s =
        .next (faulted .illegalEncoding (encode (.andReg dr sr1 fx sr2)) s))

/-- R65: NOT. -/
def Obligations.NotWritesTheComplement : Prop :=
  (∀ dr sr fx, encode (.not dr sr fx) = 0b1001#4 ++ dr.bits ++ sr.bits ++ fx) ∧
  ∀ (s : State) (dr sr : Reg) (fx : BitVec 6),
    (FixedOk s (fx = 0b111111#6) →
      exec (.not dr sr fx) s = .next (result dr (~~~(s.reg sr)) s)) ∧
    (s.cfg.strictFixedBits = true → fx ≠ 0b111111#6 →
      exec (.not dr sr fx) s = .next (faulted .illegalEncoding (encode (.not dr sr fx)) s))

/-- From R60: the sum is right modulo 2^16 read as unsigned and as two's-complement numbers, nothing
faults, and NOT, ADD #1, ADD subtract. -/
def Obligations.SumsWrapAndSubtractionIsNotAddAdd : Prop :=
  (∀ (s : State) (dr sr1 sr2 : Reg), ∃ t, exec (.addReg dr sr1 0b00#2 sr2) s = .next t ∧
    t.run = s.run ∧
    (t.reg dr).toNat = ((s.reg sr1).toNat + (s.reg sr2).toNat) % 0x10000 ∧
    (t.reg dr).toInt = ((s.reg sr1).toInt + (s.reg sr2).toInt).bmod 0x10000 ∧
    (t.cond = .N ↔ 0x8000 ≤ (t.reg dr).toNat) ∧ (t.cond = .Z ↔ (t.reg dr).toNat = 0)) ∧
  (∀ (s : State) (dr a b : Reg), a ≠ dr → ∃ t1 t2 t3,
    exec (.not dr b 0b111111#6) s = .next t1 ∧ exec (.addImm dr dr 1) t1 = .next t2 ∧
    exec (.addReg dr a 0b00#2 dr) t2 = .next t3 ∧ t3.reg dr = s.reg a - s.reg b)

/-! ## Control transfer -/

/-- R67: BR. -/
def Obligations.BranchTestsTheFlags : Prop :=
  (∀ n z p off9, encode (.br n z p off9) =
    0b0000#4 ++ BitVec.ofBool n ++ BitVec.ofBool z ++ BitVec.ofBool p ++ off9) ∧
  ∀ (s : State) (n z p : Bool) (off9 : BitVec 9),
    ((n = true ∧ s.cond = .N) ∨ (z = true ∧ s.cond = .Z) ∨ (p = true ∧ s.cond = .P) →
      exec (.br n z p off9) s = .next { s with pc := s.pc + sext off9 }) ∧
    (¬ ((n = true ∧ s.cond = .N) ∨ (z = true ∧ s.cond = .Z) ∨ (p = true ∧ s.cond = .P)) →
      exec (.br n z p off9) s = .next s) ∧
    exec (.br false false false off9) s = .next s ∧
    exec (.br true true true off9) s = .next { s with pc := s.pc + sext off9 }

/-- R68: JMP, and RET as JMP R7. -/
def Obligations.JumpGoesToTheBaseRegister : Prop :=
  (∀ fxHi base fxLo, encode (.jmp fxHi base fxLo) = 0b1100#4 ++ fxHi ++ base.bits ++ fxLo) ∧
  encode (.jmp 0b000#3 .r7 0b000000#6) = 0xC1C0 ∧
  ∀ (s : State) (fxHi : BitVec 3) (base : Reg) (fxLo : BitVec 6),
    (FixedOk s (fxHi = 0b000#3 ∧ fxLo = 0b000000#6) →
      exec (.jmp fxHi base fxLo) s = .next { s with pc := s.reg base }) ∧
    (s.cfg.strictFixedBits = true → fxHi ≠ 0b000#3 ∨ fxLo ≠ 0b000000#6 →
      exec (.jmp fxHi base fxLo) s =
        .next (faulted .illegalEncoding (encode (.jmp fxHi base fxLo)) s))

/-- R69: JSR. -/
def Obligations.JsrLinksAndJumpsRelative : Prop :=
  (∀ off11, encode (.jsr off11) = 0b0100#4 ++ 1#1 ++ off11) ∧
  ∀ (s : State) (off11 : BitVec 11),
    exec (.jsr off11) s =
      .next { s with x := RegFile.set s.x .r7 s.pc, pc := s.pc + sext off11 }

/-- R70: JSRR; the base is read after the link is written. -/
def Obligations.JsrrLinksThenReadsTheBase : Prop :=
  (∀ fxHi base fxLo,
    encode (.jsrr fxHi base fxLo) = 0b0100#4 ++ 0#1 ++ fxHi ++ base.bits ++ fxLo) ∧
  ∀ (s : State) (fxHi : BitVec 2) (base : Reg) (fxLo : BitVec 6),
    (FixedOk s (fxHi = 0b00#2 ∧ fxLo = 0b000000#6) → base ≠ .r7 →
      exec (.jsrr fxHi base fxLo) s =
        .next { s with x := RegFile.set s.x .r7 s.pc, pc := s.reg base }) ∧
    (FixedOk s (fxHi = 0b00#2 ∧ fxLo = 0b000000#6) →
      exec (.jsrr fxHi .r7 fxLo) s = .next { s with x := RegFile.set s.x .r7 s.pc }) ∧
    (s.cfg.strictFixedBits = true → fxHi ≠ 0b00#2 ∨ fxLo ≠ 0b000000#6 →
      exec (.jsrr fxHi base fxLo) s =
        .next (faulted .illegalEncoding (encode (.jsrr fxHi base fxLo)) s))

/-! ## Loads and stores -/

/-- R73: LD. -/
def Obligations.LdLoadsThePcRelativeCell : Prop :=
  (∀ dr off9, encode (.ld dr off9) = 0b0010#4 ++ dr.bits ++ off9) ∧
  ∀ (s : State) (dr : Reg) (off9 : BitVec 9),
    exec (.ld dr off9) s =
      .next (result dr (memRead (s.pc + sext off9) s).1 (memRead (s.pc + sext off9) s).2) ∧
    (s.pc + sext off9 ≠ 0xFE00 → s.pc + sext off9 ≠ 0xFE02 →
      exec (.ld dr off9) s = .next (result dr (s.mem.read (s.pc + sext off9)) s))

/-- R74: LDI; the pointer is read first, then the data. -/
def Obligations.LdiLoadsThroughThePointer : Prop :=
  (∀ dr off9, encode (.ldi dr off9) = 0b1010#4 ++ dr.bits ++ off9) ∧
  ∀ (s : State) (dr : Reg) (off9 : BitVec 9),
    (∀ p s1 v s2, memRead (s.pc + sext off9) s = (p, s1) → memRead p s1 = (v, s2) →
      exec (.ldi dr off9) s = .next (result dr v s2)) ∧
    (∀ p, s.pc + sext off9 ≠ 0xFE00 → s.pc + sext off9 ≠ 0xFE02 →
      s.mem.read (s.pc + sext off9) = p → p ≠ 0xFE00 → p ≠ 0xFE02 →
      exec (.ldi dr off9) s = .next (result dr (s.mem.read p) s))

/-- R75: LDR. -/
def Obligations.LdrLoadsTheBaseOffsetCell : Prop :=
  (∀ dr base off6, encode (.ldr dr base off6) = 0b0110#4 ++ dr.bits ++ base.bits ++ off6) ∧
  ∀ (s : State) (dr base : Reg) (off6 : BitVec 6),
    exec (.ldr dr base off6) s =
      .next (result dr (memRead (s.reg base + sext off6) s).1
        (memRead (s.reg base + sext off6) s).2) ∧
    (s.reg base + sext off6 ≠ 0xFE00 → s.reg base + sext off6 ≠ 0xFE02 →
      exec (.ldr dr base off6) s = .next (result dr (s.mem.read (s.reg base + sext off6)) s))

/-- R76: LEA; no memory is read. -/
def Obligations.LeaWritesTheAddressAndTheFlags : Prop :=
  (∀ dr off9, encode (.lea dr off9) = 0b1110#4 ++ dr.bits ++ off9) ∧
  ∀ (s : State) (dr : Reg) (off9 : BitVec 9),
    exec (.lea dr off9) s = .next (result dr (s.pc + sext off9) s)

/-- R77: ST. The cell stored to is the model's `pcRel9`; every other cell reads as before. -/
def Obligations.StStoresThePcRelativeCell : Prop :=
  (∀ sr off9, encode (.st sr off9) = 0b0011#4 ++ sr.bits ++ off9) ∧
  ∀ (s : State) (sr : Reg) (off9 : BitVec 9),
    pcRel9 off9 s = s.pc + sext off9 ∧
    ∃ m, exec (.st sr off9) s = .next { s with mem := m } ∧
      (s.mem.wf → m.read (pcRel9 off9 s) = s.reg sr) ∧
      ∀ b, b ≠ pcRel9 off9 s → m.read b = s.mem.read b

/-- R78: STI. The pointer read comes first; the cell stored to is the pointer's value, and every
other cell reads as the pointer read left it. -/
def Obligations.StiStoresThroughThePointer : Prop :=
  (∀ sr off9, encode (.sti sr off9) = 0b1011#4 ++ sr.bits ++ off9) ∧
  ∀ (s : State) (sr : Reg) (off9 : BitVec 9) (p : Word) (s1 : State),
    memRead (s.pc + sext off9) s = (p, s1) →
    (∃ m, exec (.sti sr off9) s = .next { s1 with mem := m } ∧
      (s.mem.wf → m.read p = s.reg sr) ∧ ∀ b, b ≠ p → m.read b = s1.mem.read b) ∧
    (s.pc + sext off9 ≠ 0xFE00 → s.pc + sext off9 ≠ 0xFE02 →
      p = s.mem.read (s.pc + sext off9) ∧ s1 = s)

/-- R79: STR. The cell stored to is the model's `baseOff6`; every other cell reads as before. -/
def Obligations.StrStoresTheBaseOffsetCell : Prop :=
  (∀ sr base off6, encode (.str sr base off6) = 0b0111#4 ++ sr.bits ++ base.bits ++ off6) ∧
  ∀ (s : State) (sr base : Reg) (off6 : BitVec 6),
    baseOff6 base off6 s = s.reg base + sext off6 ∧
    ∃ m, exec (.str sr base off6) s = .next { s with mem := m } ∧
      (s.mem.wf → m.read (baseOff6 base off6 s) = s.reg sr) ∧
      ∀ b, b ≠ baseOff6 base off6 s → m.read b = s.mem.read b

/-! ## TRAP -/

/-- R80: TRAP links R7 for every vector, runs the routine of the trap unit on the linked state, and
ends as its answer says; no routine changes the pc. (The model's fourth answer, `unfinished`, is
in `StepOfAWaitingOrStoppedBlock`.) -/
def Obligations.TrapLinksAndEndsAsTheRoutineAnswers : Prop :=
  (∀ fx vect, encode (.trap fx vect) = 0b1111#4 ++ fx ++ vect) ∧
  ∀ (s : State) (fx : BitVec 4) (vect : Byte),
    (FixedOk s (fx = 0b0000#4) → ∃ t, exec (.trap fx vect) s = .next t ∧
      t.reg .r7 = s.pc ∧ t.pc = s.pc ∧
      (∀ r, r ≠ .r7 → r ≠ .r0 → t.reg r = s.reg r) ∧
      (vect ≠ 0x20 → vect ≠ 0x23 → t.reg .r0 = s.reg .r0) ∧
      (vect ≠ 0x23 → t.cond = s.cond) ∧
      (∀ u, trapUnit vect (linked s) = (.ok, u) → t = { u with busy := none }) ∧
      (∀ u, trapUnit vect (linked s) = (.halt, u) →
        t = { u with run := .halted, busy := none }) ∧
      (∀ k u, trapUnit vect (linked s) = (.fault k, u) →
        t = { u with run := .faulted ⟨k, s.pc - 1, encode (.trap fx vect)⟩, busy := none })) ∧
    (s.cfg.strictFixedBits = true → fx ≠ 0b0000#4 →
      exec (.trap fx vect) s = .next (faulted .illegalEncoding (encode (.trap fx vect)) s))

/-- GETC, from R82 and R89, where the terminal has an answer. That an answer is data, and that the
one that reports an error is consumed, are the model's (log 7, 22). -/
def Obligations.GetcReadsOneCharacter : Prop :=
  ∀ (s : State) (fx : BitVec 4), FixedOk s (fx = 0b0000#4) →
    (∀ c rest, s.term.reads = .byte c :: rest →
      exec (.trap fx 0x20) s = .next { s with
        x := RegFile.set (RegFile.set s.x .r7 s.pc) .r0 (0x00#8 ++ c)
        term := { s.term with reads := rest }
        busy := none }) ∧
    (∀ rest, s.term.reads = .ioError :: rest →
      exec (.trap fx 0x20) s = .next { s with
        x := RegFile.set s.x .r7 s.pc
        term := { s.term with reads := rest }
        run := .faulted ⟨.terminalIOError, s.pc - 1, encode (.trap fx 0x20)⟩
        busy := none })

/-- OUT: its effect from R83, its I/O error from R89. When output is refused is the model's data
(log 8). -/
def Obligations.OutWritesTheLowByteOfR0 : Prop :=
  ∀ (s : State) (fx : BitVec 4), FixedOk s (fx = 0b0000#4) →
    (Accepts s.term 1 →
      exec (.trap fx 0x21) s = .next { s with
        x := RegFile.set s.x .r7 s.pc
        term := wrote s.term [(s.reg .r0).extractLsb' 0 8]
        busy := none }) ∧
    (¬ Accepts s.term 1 →
      exec (.trap fx 0x21) s = .next { s with
        x := RegFile.set s.x .r7 s.pc
        run := .faulted ⟨.terminalIOError, s.pc - 1, encode (.trap fx 0x21)⟩
        busy := none })

/-- The loop of R84: a run of PUTS reaches the state that the end of the loop leaves, or, when the
loop has no end, it never returns and never stops. The number of steps of the model it takes is the
model's choice (log 9). -/
def Obligations.PutsRunsItsLoopToTheEndOrForever : Prop :=
  ∀ (s : State) (fx : BitVec 4), s.run = .running → FixedOk s (fx = 0b0000#4) →
    ∃ u, exec (.trap fx 0x22) s = .next u ∧
      RunsLoop (encode (.trap fx 0x22)) u (PutsLoop (s.reg .r0) (linked s))

/-- PUTS of a string in ordinary cells writes the low byte of each of its words, in one step, and
changes nothing else but R7 (R84); an I/O error stops it with the bytes so far written (R89). That
it is one step, and when output is refused, are the model's (log 8, 9). -/
def Obligations.PutsWritesTheLowBytesOfAString : Prop :=
  ∀ (s : State) (fx : BitVec 4) (ws : List Word), FixedOk s (fx = 0b0000#4) →
    StringAt s.mem (s.reg .r0) ws →
    (Accepts s.term ws.length →
      exec (.trap fx 0x22) s = .next { s with
        x := RegFile.set s.x .r7 s.pc
        term := wrote s.term (ws.map lowByte)
        busy := none }) ∧
    (∀ k, s.term.outLeft = some k → k < ws.length →
      exec (.trap fx 0x22) s = .next { s with
        x := RegFile.set s.x .r7 s.pc
        term := wrote s.term ((ws.take k).map lowByte)
        run := .faulted ⟨.terminalIOError, s.pc - 1, encode (.trap fx 0x22)⟩
        busy := none })

/-- IN, from R85, where the terminal has an answer, and its I/O errors at every point of its
pseudocode (R89). When output is refused (log 8), that an answer is data (log 7), and that the read's
answer is consumed before the echo can fail and with the error it reports (log 22) are the model's. -/
def Obligations.InPromptsReadsEchoesAndSetsFlags : Prop :=
  ∀ (s : State) (fx : BitVec 4), FixedOk s (fx = 0b0000#4) →
    (∀ c rest, s.term.reads = .byte c :: rest → Accepts s.term (s.cfg.inPrompt.length + 1) →
      exec (.trap fx 0x23) s = .next { s with
        x := RegFile.set (RegFile.set s.x .r7 s.pc) .r0 (0x00#8 ++ c)
        cond := if c = 0 then .Z else .P
        term := { wrote s.term (s.cfg.inPrompt ++ [c]) with reads := rest }
        busy := none }) ∧
    (∀ rest, s.term.reads = .ioError :: rest → Accepts s.term s.cfg.inPrompt.length →
      exec (.trap fx 0x23) s = .next { s with
        x := RegFile.set s.x .r7 s.pc
        term := { wrote s.term s.cfg.inPrompt with reads := rest }
        run := .faulted ⟨.terminalIOError, s.pc - 1, encode (.trap fx 0x23)⟩
        busy := none }) ∧
    (∀ c rest, s.term.reads = .byte c :: rest → s.term.outLeft = some s.cfg.inPrompt.length →
      exec (.trap fx 0x23) s = .next { s with
        x := RegFile.set s.x .r7 s.pc
        term := { wrote s.term s.cfg.inPrompt with reads := rest }
        run := .faulted ⟨.terminalIOError, s.pc - 1, encode (.trap fx 0x23)⟩
        busy := none }) ∧
    (∀ k, s.term.outLeft = some k → k < s.cfg.inPrompt.length →
      exec (.trap fx 0x23) s = .next { s with
        x := RegFile.set s.x .r7 s.pc
        term := wrote s.term (s.cfg.inPrompt.take k)
        run := .faulted ⟨.terminalIOError, s.pc - 1, encode (.trap fx 0x23)⟩
        busy := none })

/-- The loop of R86: a run of PUTSP, under either value of PUTSP_STOP, reaches the state that the
end of the loop leaves, or, when the loop has no end, it never returns and never stops. The number
of steps of the model it takes is the model's choice (log 9). -/
def Obligations.PutspRunsItsLoopToTheEndOrForever : Prop :=
  ∀ (s : State) (fx : BitVec 4), s.run = .running → FixedOk s (fx = 0b0000#4) →
    ∃ u, exec (.trap fx 0x24) s = .next u ∧
      RunsLoop (encode (.trap fx 0x24)) u (PutspLoop s.cfg.putspStop (s.reg .r0) (linked s))

/-- PUTSP under zero_word, of a string in ordinary cells: the low byte of each word and its high
byte if that is nonzero, in one step, nothing else changed but R7 (R86). That it is one step is the
model's (log 9). -/
def Obligations.PutspWritesBothBytesOfAString : Prop :=
  ∀ (s : State) (fx : BitVec 4) (ws : List Word), FixedOk s (fx = 0b0000#4) →
    s.cfg.putspStop = .zeroWord → StringAt s.mem (s.reg .r0) ws →
    Accepts s.term (ws.flatMap (putspBytes .zeroWord)).length →
    exec (.trap fx 0x24) s = .next { s with
      x := RegFile.set s.x .r7 s.pc
      term := wrote s.term (ws.flatMap (putspBytes .zeroWord))
      busy := none }

/-- The agreement that R86 derives: on a string whose words meet its condition, the two values of PUTSP_STOP give
the same output and the same end (the same whole state but for the parameter). -/
def Obligations.PutspReadingsAgreeOnPackedStrings : Prop :=
  ∀ (s : State) (fx : BitVec 4) (ws : List Word),
    StringAt s.mem (s.reg .r0) ws → BothReadingsAgree ws →
    ∃ t : State, exec (.trap fx 0x24) { s with cfg := { s.cfg with putspStop := .zeroWord } } =
        .next { t with cfg := { s.cfg with putspStop := .zeroWord } } ∧
      exec (.trap fx 0x24) { s with cfg := { s.cfg with putspStop := .zeroByte } } =
        .next { t with cfg := { s.cfg with putspStop := .zeroByte } }

/-- HALT, from R87: it flushes the output and halts; R7 is the only register written; the block
never steps again. That the flush is one output operation and a count is the model's reading (log
20). -/
def Obligations.HaltFlushesAndEndsTheRun : Prop :=
  ∀ (s : State) (fx : BitVec 4), FixedOk s (fx = 0b0000#4) → Accepts s.term 1 →
    ∃ t, exec (.trap fx 0x25) s = .next t ∧
      t = { s with
        x := RegFile.set s.x .r7 s.pc
        run := .halted
        term := { s.term with
          flushed := s.term.out.length, outLeft := s.term.outLeft.map (· - 1) }
        busy := none } ∧
      ¬ ∃ u, step t = .next u

/-- R88: any other vector faults UnknownTrapVector after the R7 write. -/
def Obligations.UnknownVectorFaultsAfterTheLink : Prop :=
  ∀ (s : State) (fx : BitVec 4) (vect : Byte), FixedOk s (fx = 0b0000#4) → ¬ KnownVector vect →
    exec (.trap fx vect) s = .next { s with
      x := RegFile.set s.x .r7 s.pc
      run := .faulted ⟨.unknownTrapVector, s.pc - 1, encode (.trap fx vect)⟩
      busy := none }

/-- From R89: an I/O error makes any of the six routines fault with TerminalIOError, the R7 write
and the output so far kept and R0 and cond unwritten; a read that is never answered is no error:
the TRAP waits, step after step, and goes on when an answer comes: GETC writes R0; IN echoes, writes
R0 and sets the flags, or faults where the echo is refused (R85). The model's own choices in it:
that a wait is a `busy` TRAP (log 7), when output is refused (log 8), that HALT's flush is an output
operation (log 20), and that the answer that ends in an error is consumed (log 22). -/
def Obligations.TerminalErrorsFaultAndSilenceWaits : Prop :=
  (∀ (s : State) (fx : BitVec 4) (vect : Byte), FixedOk s (fx = 0b0000#4) →
    ((∃ rest, s.term.reads = .ioError :: rest) ∧
        (vect = 0x20 ∨ (vect = 0x23 ∧ Accepts s.term s.cfg.inPrompt.length))) ∨
      (s.term.outLeft = some 0 ∧
        (vect = 0x21 ∨ vect = 0x25 ∨ (vect = 0x23 ∧ s.cfg.inPrompt ≠ []) ∨
          ((vect = 0x22 ∨ vect = 0x24) ∧ s.reg .r0 ≠ 0xFE00 ∧ s.mem.read (s.reg .r0) ≠ 0 ∧
            lowByte (s.mem.read (s.reg .r0)) ≠ 0))) →
    ∃ t, exec (.trap fx vect) s = .next t ∧
      t.run = .faulted ⟨.terminalIOError, s.pc - 1, encode (.trap fx vect)⟩) ∧
  (∀ (i : Instr) (s t : State) (r : FaultRecord), s.run = .running → exec i s = .next t →
    t.run = .faulted r → r.kind = .terminalIOError →
    t.reg .r7 = s.pc ∧ t.reg .r0 = s.reg .r0 ∧ t.cond = s.cond ∧ s.term.out <+: t.term.out) ∧
  (∀ (s : State) (w : Word) (k : TrapWork), s.run = .running → s.busy = some ⟨w, k⟩ →
    k = .getc ∨ k = .inEcho →
    (s.term.reads = [] → step s = .next s) ∧
    (∀ c rest, k = .getc → s.term.reads = .byte c :: rest →
      step s = .next { s with
        x := RegFile.set s.x .r0 (0x00#8 ++ c)
        term := { s.term with reads := rest }
        busy := none }) ∧
    (∀ c rest, k = .inEcho → s.term.reads = .byte c :: rest → Accepts s.term 1 →
      step s = .next { s with
        x := RegFile.set s.x .r0 (0x00#8 ++ c)
        cond := if c = 0 then .Z else .P
        term := { wrote s.term [c] with reads := rest }
        busy := none }) ∧
    (∀ c rest, k = .inEcho → s.term.reads = .byte c :: rest → ¬ Accepts s.term 1 →
      step s = .next { s with
        run := .faulted ⟨.terminalIOError, s.pc - 1, w⟩
        term := { s.term with reads := rest }
        busy := none }) ∧
    (∀ rest, s.term.reads = .ioError :: rest →
      step s = .next { s with
        run := .faulted ⟨.terminalIOError, s.pc - 1, w⟩
        term := { s.term with reads := rest }
        busy := none }))

/-! ## Faults and the step -/

/-- R90: RTI faults ReservedInstruction; only the run state changes. -/
def Obligations.RtiFaults : Prop :=
  ∀ (s : State) (low : BitVec 12),
    encode (.rti low) = 0b1000#4 ++ low ∧
    exec (.rti low) s = .next { s with
      run := .faulted ⟨.reservedInstruction, s.pc - 1, 0b1000#4 ++ low⟩ } ∧
    (FaultRecord.mk .reservedInstruction (s.pc - 1) (0b1000#4 ++ low)).opcode = 0b1000#4

/-- R91: the reserved opcode faults ReservedInstruction; only the run state changes. -/
def Obligations.ReservedOpcodeFaults : Prop :=
  ∀ (s : State) (low : BitVec 12),
    encode (.reserved low) = 0b1101#4 ++ low ∧
    exec (.reserved low) s = .next { s with
      run := .faulted ⟨.reservedInstruction, s.pc - 1, 0b1101#4 ++ low⟩ } ∧
    (FaultRecord.mk .reservedInstruction (s.pc - 1) (0b1101#4 ++ low)).opcode = 0b1101#4

/-- R94: fault entry. The record, and that nothing else changes: what each kind of fault leaves
written and unwritten. With it, from R92 and R96, the codes, which instruction raises which kind,
and which check comes first. -/
def Obligations.FaultsAreThoseOfTheTable : Prop :=
  FaultKind.code .reservedInstruction = 1 ∧ FaultKind.code .unknownTrapVector = 2 ∧
  FaultKind.code .illegalEncoding = 3 ∧ FaultKind.code .terminalIOError = 4 ∧
  ∀ (i : Instr) (s t : State), s.run = .running → exec i s = .next t →
    (Illegal i s → ∃ r, t.run = .faulted r ∧ r.kind = .illegalEncoding) ∧
    ((∃ low, i = .rti low ∨ i = .reserved low) →
      ∃ r, t.run = .faulted r ∧ r.kind = .reservedInstruction) ∧
    (∀ fx v, i = .trap fx v → ¬ Illegal i s → ¬ KnownVector v →
      ∃ r, t.run = .faulted r ∧ r.kind = .unknownTrapVector) ∧
    (∀ r, t.run = .faulted r →
      r.pc = s.pc - 1 ∧ r.word = encode i ∧ t.pc = s.pc ∧
      r.code = r.kind.code ∧ r.opcode = (encode i).extractLsb' 12 4 ∧
      (∀ v, r.vect = some v ↔ ∃ fx, i = .trap fx v) ∧
      match r.kind with
      | .reservedInstruction =>
        (∃ low, i = .rti low ∨ i = .reserved low) ∧ t = { s with run := t.run }
      | .unknownTrapVector =>
        (∃ fx v, i = .trap fx v ∧ ¬ KnownVector v) ∧ ¬ Illegal i s ∧
          t = { linked s with run := t.run, busy := none }
      | .illegalEncoding => Illegal i s ∧ t = { s with run := t.run }
      | .terminalIOError =>
        (∃ fx v, i = .trap fx v ∧ KnownVector v) ∧ ¬ Illegal i s ∧ t.x = (linked s).x ∧
          t.cond = s.cond ∧ s.term.out <+: t.term.out ∧
          ∀ a, a ≠ 0xFE00 → a ≠ 0xFE02 → t.mem.read a = s.mem.read a)

/-- R45: a step of a running block, with no TRAP in progress, fetches the word at the pc with the
read's side effects, advances the pc before the decode, and executes the decoded instruction;
Halted and Faulted have no step. -/
def Obligations.StepRunsTheDecodedInstruction : Prop :=
  ∀ s : State,
    (s.run = .running → s.busy = none →
      step s = exec (decode (memRead s.pc s).1) { (memRead s.pc s).2 with pc := s.pc + 1 }) ∧
    (∀ i, s.run = .running → s.busy = none → s.pc ≠ 0xFE00 → s.pc ≠ 0xFE02 →
      decode (s.mem.read s.pc) = i → step s = exec i { s with pc := s.pc + 1 }) ∧
    (s.run ≠ .running → ¬ ∃ t, step s = .next t)

/-- The model's own answers: a routine that has not returned leaves its TRAP in `busy` (GETC and IN
without an answer among them, log 7; a string longer than a lap, log 9), the next step goes on with
it, and a stopped block answers the fault that says how it stopped (log 10). -/
def Obligations.StepOfAWaitingOrStoppedBlock : Prop :=
  (∀ (s : State) (fx : BitVec 4) (vect : Byte) (k : TrapWork) (u : State),
    FixedOk s (fx = 0b0000#4) → trapUnit vect (linked s) = (.unfinished k, u) →
    exec (.trap fx vect) s = .next { u with busy := some ⟨encode (.trap fx vect), k⟩ }) ∧
  (∀ (s : State) (fx : BitVec 4), FixedOk s (fx = 0b0000#4) → s.term.reads = [] →
    exec (.trap fx 0x20) s = .next { s with
      x := RegFile.set s.x .r7 s.pc
      busy := some ⟨encode (.trap fx 0x20), .getc⟩ } ∧
    (Accepts s.term s.cfg.inPrompt.length →
      exec (.trap fx 0x23) s = .next { s with
        x := RegFile.set s.x .r7 s.pc
        term := wrote s.term s.cfg.inPrompt
        busy := some ⟨encode (.trap fx 0x23), .inEcho⟩ })) ∧
  ∀ s : State,
    (∀ b, s.run = .running → s.busy = some b →
      step s = .next (finishTrap b.word (continueWork b.work s))) ∧
    (s.run = .halted → step s = .fault .halted) ∧
    (∀ r, s.run = .faulted r → step s = .fault (.faulted r))

/-- Nothing but HALT and a fault stops the machine, from R93 (no other exception exists) and R45 (a
step needs Running): every instruction answers a next state in every state, and every step of a
running block does. That a fault is a next state, and that a TRAP that waits or whose string has not
ended answers one, are the model's (log 10; 7, 9). -/
def Obligations.RunningBlockAlwaysSteps : Prop :=
  (∀ (i : Instr) (s : State), ∃ t, exec i s = .next t) ∧
  (∀ s : State, s.run = .running ↔ ∃ t, step s = .next t)

/-! ## Rules over all instructions -/

/-- From R19: the flags are set from the value written to DR by ADD, AND, NOT, LD, LDI, LDR and LEA,
from R0 by the IN routine, and written by nothing else. -/
def Obligations.FlagsAreWrittenByTheSettersOnly : Prop :=
  ∀ (i : Instr) (s t : State), exec i s = .next t →
    (∀ dr, flagSource i = some dr → ¬ Illegal i s → t.cond = condOf (t.reg dr)) ∧
    (flagSource i = none → (∀ fx, i ≠ .trap fx 0x23) → t.cond = s.cond) ∧
    (Illegal i s → t.cond = s.cond) ∧
    (∀ fx, i = .trap fx 0x23 → t.cond = s.cond ∨ t.cond = condOf (t.reg .r0))

/-- BR is the only reader of the flags (R19): any other instruction, run with other flags, does the
same to everything else. -/
def Obligations.OnlyBranchReadsTheFlags : Prop :=
  ∀ (i : Instr) (s t : State) (c : Cond), (∀ n z p off9, i ≠ .br n z p off9) →
    exec i s = .next t →
    ∃ t', exec i { s with cond := c } = .next t' ∧ { t' with cond := t.cond } = t

/-- From R16: no register but an instruction's destination (and R7 for a link, R0 for GETC and IN)
changes. -/
def Obligations.RegistersChangeOnlyAsTheTableSays : Prop :=
  ∀ (i : Instr) (s t : State) (r : Reg), exec i s = .next t → ¬ writes i r → t.reg r = s.reg r

/-- From R22: how each instruction leaves the pc. -/
def Obligations.PcAfterEachInstruction : Prop :=
  ∀ (i : Instr) (s t : State), exec i s = .next t →
    (¬ Illegal i s → t.pc = pcAfter i s) ∧ (Illegal i s → t.pc = s.pc)

/-- Only the stores change memory, but for the two keyboard cells (R30), and they only the cell
they store to; no instruction changes a parameter, shortens the output, or takes the block out of
Running but HALT and the faults. -/
def Obligations.OnlyStoresChangeOrdinaryCells : Prop :=
  ∀ (i : Instr) (s t : State), exec i s = .next t →
    t.cfg = s.cfg ∧ s.term.out <+: t.term.out ∧
    (t.run = s.run ∨ (∃ r, t.run = .faulted r) ∨ (t.run = .halted ∧ ∃ fx, i = .trap fx 0x25)) ∧
    ∀ a, a ≠ 0xFE00 → a ≠ 0xFE02 →
      (∀ sr off9, i = .st sr off9 → a ≠ pcRel9 off9 s) →
      (∀ sr off9, i = .sti sr off9 → a ≠ (memRead (pcRel9 off9 s) s).1) →
      (∀ sr base off6, i = .str sr base off6 → a ≠ baseOff6 base off6 s) →
      t.mem.read a = s.mem.read a

/-- A store, ST, STI or STR, is seen by the next fetch of its cell (any but 0xFE00, which the fetch
itself polls); and a store that overwrites its own cell still runs as it was fetched, the cell then
holding the new word (R44). -/
def Obligations.StoresAreSeenByTheNextFetch : Prop :=
  ∀ (i : Instr) (sr : Reg) (a : Word), storeSource i = some sr →
    (∀ s : State, s.mem.wf → storeAddress i s = some a → a ≠ 0xFE00 →
      ∃ t, exec i s = .next t ∧ (fetch { t with pc := a }).1 = s.reg sr) ∧
    (∀ s : State, s.mem.wf → s.run = .running → s.busy = none →
      s.pc = a → a ≠ 0xFE00 → a ≠ 0xFE02 → decode (s.mem.read a) = i →
      storeAddress i { s with pc := a + 1 } = some a →
      ∃ t, step s = .next t ∧ t.pc = a + 1 ∧ t.mem.read a = s.reg sr ∧
        (fetch { t with pc := a }).1 = s.reg sr)

/-- Every step keeps the invariant: canonical memory, an unfinished TRAP that is running, linked
and the routine its word names, a fault record that fits its kind, no more flushed than written. -/
def Obligations.EveryStepKeepsTheInvariant : Prop :=
  ∀ s t : State, Inv s → step s = .next t → Inv t

/-- The invariant holds at the start of every run, the reset state among them, whatever the
parameters, the environment's answers and a canonical memory. -/
def Obligations.RunStartMeetsTheInvariant : Prop :=
  (∀ (cfg : Config) (term : Terminal) (mem : Memory), mem.wf → term.flushed ≤ term.out.length →
    Inv (State.start cfg term mem)) ∧
  Inv State.reset

/-- No step changes a parameter (R8: they are fixed for a machine) or takes back a byte of output
(`out` is append-only). -/
def Obligations.StepsKeepParametersAndOutput : Prop :=
  ∀ s t : State, step s = .next t → t.cfg = s.cfg ∧ s.term.out <+: t.term.out

/-! ## Reset, loading and the end of a run -/

/-- R105 (and R27): the start state, for every GPR_RESET and every loaded memory; the reset state
is one of them, with every cell 0. -/
def Obligations.RunStartsAsTheRuleSays : Prop :=
  (∀ (cfg : Config) (term : Terminal) (files : List (Option (List Byte))) (m : Memory),
    loadImages files [] = .ok m →
    ∃ s, boot cfg term files = .ok s ∧
      s.cond = .Z ∧ s.pc = 0x3000 ∧ s.run = .running ∧ s.mem = m ∧ s.busy = none ∧ s.cfg = cfg ∧
      ∀ r, s.reg r = RegFile.get cfg.gprReset r) ∧
  State.reset.cond = .Z ∧ State.reset.pc = 0x3000 ∧ State.reset.run = .running ∧
  ∀ a, State.reset.mem.read a = 0

/-- R103: memory starts at 0; images are loaded one at a time in argument order, stopping at the
first error; an image's payload word k goes to cell origin + k and no other cell changes. -/
def Obligations.LoadingPutsThePayloadAtItsOrigin : Prop :=
  (∀ a, Memory.read [] a = 0x0000) ∧
  (∀ m, loadImages [] m = .ok m) ∧
  (∀ f fs m, loadImages (f :: fs) m = match parseImage f with
    | .error e => .error e
    | .ok im => loadImages fs (loadWords im.origin im.payload m)) ∧
  (∀ (o : Word) (ws : List Word) (m : Memory), m.wf → o.toNat + ws.length ≤ 0x10000 →
    (loadWords o ws m).wf ∧
    (∀ k w, ws[k]? = some w → (loadWords o ws m).read (o + BitVec.ofNat 16 k) = w) ∧
    (∀ a : Word, a.toNat < o.toNat ∨ o.toNat + ws.length ≤ a.toNat →
      (loadWords o ws m).read a = m.read a))

/-- R102 and R104: an image is big-endian words, the first its origin; the three load errors, and
none else; after an error no run starts. -/
def Obligations.ImagesAreBigEndianWordsOrErrors : Prop :=
  parseImage none = .error .unreadable ∧
  (∀ bytes : List Byte, bytes.length < 2 ∨ bytes.length % 2 = 1 →
    parseImage (some bytes) = .error .truncated) ∧
  (∀ bytes : List Byte, ∀ b0 b1 rest, bytes = b0 :: b1 :: rest → bytes.length % 2 = 0 →
    (b0.toNat * 256 + b1.toNat + rest.length / 2 > 0x10000 →
      parseImage (some bytes) = .error .doesNotFit) ∧
    (b0.toNat * 256 + b1.toNat + rest.length / 2 ≤ 0x10000 →
      ∃ im, parseImage (some bytes) = .ok im ∧ im.origin.toNat = b0.toNat * 256 + b1.toNat ∧
        im.payload.length = rest.length / 2 ∧
        ∀ k, (h : k < im.payload.length) → ∃ hi lo,
          rest[2 * k]? = some hi ∧ rest[2 * k + 1]? = some lo ∧
          (im.payload[k]'h).toNat = hi.toNat * 256 + lo.toNat)) ∧
  (∀ f fs m e, parseImage f = .error e → loadImages (f :: fs) m = .error e) ∧
  (∀ f fs m im, parseImage f = .ok im →
    loadImages (f :: fs) m = loadImages fs (loadWords im.origin im.payload m)) ∧
  (∀ cfg term files e, loadImages files [] = .error e → boot cfg term files = .error e)

/-- A run ends in at most one way, at most once, and one that never ends has no end (R107). -/
def Obligations.RunEndsInAtMostOneWay : Prop :=
  ∀ s : State,
    (∀ n m t u, EndsHalted n s t → EndsHalted m s u → n = m ∧ t = u) ∧
    (∀ n m t u r r', EndsFaulted n s t r → EndsFaulted m s u r' → n = m ∧ t = u ∧ r = r') ∧
    (∀ n m t u r, EndsHalted n s t → ¬ EndsFaulted m s u r) ∧
    (NeverEnds s → ∀ n t, ¬ EndsHalted n s t ∧ ∀ r, ¬ EndsFaulted n s t r)

/-! ## Going on with a TRAP -/

/-- A step that goes on with a TRAP in `busy` (the model's own, log 7, 9) has the frame of the
routine's rule: no pc, no parameter, no register but R0 (GETC and IN only), no flag (but IN's, from
R0), no cell but the two keyboard cells (PUTS and PUTSP only) and no byte of the output so far; it
ends, goes on, or faults TerminalIOError with R0 and the flags unwritten (R81, R89). -/
def Obligations.StepOfABusyTrapKeepsTheFrame : Prop :=
  ∀ (s : State) (b : Busy), s.run = .running → s.busy = some b →
    ∃ t, step s = .next t ∧ t.pc = s.pc ∧ t.cfg = s.cfg ∧ s.term.out <+: t.term.out ∧
      (∀ r, r ≠ .r0 → t.reg r = s.reg r) ∧
      (b.work ≠ .getc → b.work ≠ .inEcho → t.reg .r0 = s.reg .r0) ∧
      (b.work ≠ .inEcho → t.cond = s.cond) ∧
      (t.cond = s.cond ∨ t.cond = condOf (t.reg .r0)) ∧
      (b.work = .getc ∨ b.work = .inEcho → t.mem = s.mem) ∧
      (∀ a, a ≠ 0xFE00 → a ≠ 0xFE02 → t.mem.read a = s.mem.read a) ∧
      ((t.run = .running ∧ (t.busy = some b ∨ t.busy = none)) ∨
        (t.run = .faulted ⟨.terminalIOError, s.pc - 1, b.word⟩ ∧ t.busy = none ∧
          t.x = s.x ∧ t.cond = s.cond))
end

