-- ==== Sys2Proof/Laws/Memory.lean ====
section
/-! SUPPORT. The laws of memory: a read after a write, and the canonical form (20_memory R36,
R42). -/

namespace Sys2Proof.Machine

variable {m : Memory} {a b v : Word}

@[simp] theorem Memory.read_nil : Memory.read [] a = 0 := rfl

/-- A cell below every listed address is blank. -/
theorem Memory.read_eq_blank_of_forall_ne (h : ∀ c ∈ m, c.1 ≠ a.toNat) :
    Memory.read m a = Memory.blankCell := by
  induction m with
  | nil => rfl
  | cons c m ih =>
    simp only [Memory.read, if_neg (h c (by simp))]
    exact ih fun d hd => h d (by simp [hd])

/-- A write leaves every other cell alone, whatever the list. -/
theorem Memory.read_write_other (h : b ≠ a) :
    Memory.read (Memory.write m a v) b = Memory.read m b := by
  have hn : a.toNat ≠ b.toNat := fun e => h (BitVec.eq_of_toNat_eq e.symm)
  induction m with
  | nil => simp only [Memory.write]; split <;> simp [Memory.read, hn]
  | cons c m ih =>
    obtain ⟨k, u⟩ := c
    simp only [Memory.write]
    split
    · split <;> simp [Memory.read, hn]
    · split
      · rename_i hk
        split <;> simp [Memory.read, hn, hk]
      · simp only [Memory.read, ih]

/-- The cell just written reads back. -/
theorem Memory.read_write_same (hm : m.wf) : Memory.read (Memory.write m a v) a = v := by
  induction m with
  | nil => simp only [Memory.write]; split <;> simp_all [Memory.read]
  | cons c m ih =>
    obtain ⟨k, u⟩ := c
    obtain ⟨hp, hc⟩ := hm
    rw [List.pairwise_cons] at hp
    simp only [Memory.write]
    split
    · rename_i hk
      split
      · rename_i hv
        subst hv
        refine Memory.read_eq_blank_of_forall_ne fun d hd => ?_
        rcases List.mem_cons.mp hd with rfl | hd
        · simp only; omega
        · have := hp.1 d hd; simp only at this; omega
      · simp [Memory.read]
    · split
      · rename_i hk
        split
        · rename_i hv
          subst hv
          refine Memory.read_eq_blank_of_forall_ne fun d hd => ?_
          have := hp.1 d hd
          simp only at this
          omega
        · simp [Memory.read]
      · rename_i hk
        simp only [Memory.read, if_neg hk]
        exact ih ⟨hp.2, fun d hd => hc d (by simp [hd])⟩

/-- The addresses of a written memory are those before, and the written one. -/
theorem Memory.mem_write {c : Cell} (h : c ∈ Memory.write m a v) :
    c ∈ m ∨ (c = (a.toNat, v) ∧ v ≠ Memory.blankCell) := by
  induction m with
  | nil => simp only [Memory.write] at h; split at h <;> simp_all
  | cons d m ih =>
    obtain ⟨k, u⟩ := d
    simp only [Memory.write] at h
    split at h
    · (split at h <;> simp_all); tauto
    · split at h
      · (split at h <;> simp_all); tauto
      · rcases List.mem_cons.mp h with rfl | h
        · simp
        · rcases ih h with h | h
          · simp [h]
          · exact .inr h

/-- A write keeps the canonical form. -/
theorem Memory.write_wf (hm : m.wf) : (Memory.write m a v).wf := by
  refine ⟨?_, fun c hc => ?_⟩
  · replace hm := hm.1
    induction m with
    | nil => simp only [Memory.write]; split <;> simp
    | cons d m ih =>
      obtain ⟨k, u⟩ := d
      rw [List.pairwise_cons] at hm
      simp only [Memory.write]
      split
      · rename_i hk
        split
        · exact List.pairwise_cons.mpr hm
        · refine List.pairwise_cons.mpr ⟨fun c hc => ?_, List.pairwise_cons.mpr hm⟩
          rcases List.mem_cons.mp hc with rfl | hc
          · exact hk
          · exact Nat.lt_trans hk (hm.1 c hc)
      · split
        · rename_i hk
          split
          · exact hm.2
          · exact List.pairwise_cons.mpr ⟨fun c hc => hk ▸ hm.1 c hc, hm.2⟩
        · refine List.pairwise_cons.mpr ⟨fun c hc => ?_, ih hm.2⟩
          rcases Memory.mem_write hc with hc | ⟨rfl, -⟩
          · exact hm.1 c hc
          · simp only; omega
  · rcases Memory.mem_write hc with hc | ⟨rfl, hv⟩
    · exact hm.2 c hc
    · exact ⟨a.isLt, hv⟩

/-- A listed cell of a canonical memory is what a read gives. -/
theorem Memory.read_of_mem (hm : m.wf) {w : Word} (h : (a.toNat, w) ∈ m) :
    Memory.read m a = w := by
  induction m with
  | nil => simp at h
  | cons c m ih =>
    obtain ⟨k, u⟩ := c
    have hp := List.pairwise_cons.mp hm.1
    rcases List.mem_cons.mp h with h | h
    · injection h with h1 h2
      simp [Memory.read, h1, h2]
    · have hk : k ≠ a.toNat := Nat.ne_of_lt (hp.1 _ h)
      simp only [Memory.read, if_neg hk]
      exact ih ⟨hp.2, fun d hd => hm.2 d (by simp [hd])⟩ h

/-- A cell that does not read blank is listed. -/
theorem Memory.mem_of_read (h : Memory.read m a ≠ Memory.blankCell) :
    (a.toNat, Memory.read m a) ∈ m := by
  induction m with
  | nil => exact absurd rfl h
  | cons c m ih =>
    obtain ⟨k, u⟩ := c
    by_cases hk : k = a.toNat
    · simp [Memory.read, hk]
    · simp only [Memory.read, if_neg hk] at h ⊢
      exact List.mem_cons_of_mem _ (ih h)

end Sys2Proof.Machine
end

