-- ==== Sys2Proof/Laws/State.lean ====
section
/-! SUPPORT. What every state update does to every field of the state: one lemma per field per
update, each true by definition. -/

namespace Sys2Proof.Machine

@[simp] theorem State.setReg_x (i : Reg) (v : Word) (s : State) : (s.setReg i v).x = RegFile.set s.x i v := rfl
@[simp] theorem State.setReg_pc (i : Reg) (v : Word) (s : State) : (s.setReg i v).pc = s.pc := rfl
@[simp] theorem State.setReg_cond (i : Reg) (v : Word) (s : State) : (s.setReg i v).cond = s.cond := rfl
@[simp] theorem State.setReg_run (i : Reg) (v : Word) (s : State) : (s.setReg i v).run = s.run := rfl
@[simp] theorem State.setReg_mem (i : Reg) (v : Word) (s : State) : (s.setReg i v).mem = s.mem := rfl
@[simp] theorem State.setReg_term (i : Reg) (v : Word) (s : State) : (s.setReg i v).term = s.term := rfl
@[simp] theorem State.setReg_busy (i : Reg) (v : Word) (s : State) : (s.setReg i v).busy = s.busy := rfl
@[simp] theorem State.setReg_cfg (i : Reg) (v : Word) (s : State) : (s.setReg i v).cfg = s.cfg := rfl

@[simp] theorem State.setPc_x (v : Word) (s : State) : (s.setPc v).x = s.x := rfl
@[simp] theorem State.setPc_pc (v : Word) (s : State) : (s.setPc v).pc = v := rfl
@[simp] theorem State.setPc_cond (v : Word) (s : State) : (s.setPc v).cond = s.cond := rfl
@[simp] theorem State.setPc_run (v : Word) (s : State) : (s.setPc v).run = s.run := rfl
@[simp] theorem State.setPc_mem (v : Word) (s : State) : (s.setPc v).mem = s.mem := rfl
@[simp] theorem State.setPc_term (v : Word) (s : State) : (s.setPc v).term = s.term := rfl
@[simp] theorem State.setPc_busy (v : Word) (s : State) : (s.setPc v).busy = s.busy := rfl
@[simp] theorem State.setPc_cfg (v : Word) (s : State) : (s.setPc v).cfg = s.cfg := rfl

@[simp] theorem State.setCond_x (c : Cond) (s : State) : (s.setCond c).x = s.x := rfl
@[simp] theorem State.setCond_pc (c : Cond) (s : State) : (s.setCond c).pc = s.pc := rfl
@[simp] theorem State.setCond_cond (c : Cond) (s : State) : (s.setCond c).cond = c := rfl
@[simp] theorem State.setCond_run (c : Cond) (s : State) : (s.setCond c).run = s.run := rfl
@[simp] theorem State.setCond_mem (c : Cond) (s : State) : (s.setCond c).mem = s.mem := rfl
@[simp] theorem State.setCond_term (c : Cond) (s : State) : (s.setCond c).term = s.term := rfl
@[simp] theorem State.setCond_busy (c : Cond) (s : State) : (s.setCond c).busy = s.busy := rfl
@[simp] theorem State.setCond_cfg (c : Cond) (s : State) : (s.setCond c).cfg = s.cfg := rfl

@[simp] theorem State.setRun_x (r : RunState) (s : State) : (s.setRun r).x = s.x := rfl
@[simp] theorem State.setRun_pc (r : RunState) (s : State) : (s.setRun r).pc = s.pc := rfl
@[simp] theorem State.setRun_cond (r : RunState) (s : State) : (s.setRun r).cond = s.cond := rfl
@[simp] theorem State.setRun_run (r : RunState) (s : State) : (s.setRun r).run = r := rfl
@[simp] theorem State.setRun_mem (r : RunState) (s : State) : (s.setRun r).mem = s.mem := rfl
@[simp] theorem State.setRun_term (r : RunState) (s : State) : (s.setRun r).term = s.term := rfl
@[simp] theorem State.setRun_busy (r : RunState) (s : State) : (s.setRun r).busy = s.busy := rfl
@[simp] theorem State.setRun_cfg (r : RunState) (s : State) : (s.setRun r).cfg = s.cfg := rfl

@[simp] theorem State.setMem_x (m : Memory) (s : State) : (s.setMem m).x = s.x := rfl
@[simp] theorem State.setMem_pc (m : Memory) (s : State) : (s.setMem m).pc = s.pc := rfl
@[simp] theorem State.setMem_cond (m : Memory) (s : State) : (s.setMem m).cond = s.cond := rfl
@[simp] theorem State.setMem_run (m : Memory) (s : State) : (s.setMem m).run = s.run := rfl
@[simp] theorem State.setMem_mem (m : Memory) (s : State) : (s.setMem m).mem = m := rfl
@[simp] theorem State.setMem_term (m : Memory) (s : State) : (s.setMem m).term = s.term := rfl
@[simp] theorem State.setMem_busy (m : Memory) (s : State) : (s.setMem m).busy = s.busy := rfl
@[simp] theorem State.setMem_cfg (m : Memory) (s : State) : (s.setMem m).cfg = s.cfg := rfl

@[simp] theorem State.setTerm_x (t : Terminal) (s : State) : (s.setTerm t).x = s.x := rfl
@[simp] theorem State.setTerm_pc (t : Terminal) (s : State) : (s.setTerm t).pc = s.pc := rfl
@[simp] theorem State.setTerm_cond (t : Terminal) (s : State) : (s.setTerm t).cond = s.cond := rfl
@[simp] theorem State.setTerm_run (t : Terminal) (s : State) : (s.setTerm t).run = s.run := rfl
@[simp] theorem State.setTerm_mem (t : Terminal) (s : State) : (s.setTerm t).mem = s.mem := rfl
@[simp] theorem State.setTerm_term (t : Terminal) (s : State) : (s.setTerm t).term = t := rfl
@[simp] theorem State.setTerm_busy (t : Terminal) (s : State) : (s.setTerm t).busy = s.busy := rfl
@[simp] theorem State.setTerm_cfg (t : Terminal) (s : State) : (s.setTerm t).cfg = s.cfg := rfl

@[simp] theorem State.setBusy_x (b : Option Busy) (s : State) : (s.setBusy b).x = s.x := rfl
@[simp] theorem State.setBusy_pc (b : Option Busy) (s : State) : (s.setBusy b).pc = s.pc := rfl
@[simp] theorem State.setBusy_cond (b : Option Busy) (s : State) : (s.setBusy b).cond = s.cond := rfl
@[simp] theorem State.setBusy_run (b : Option Busy) (s : State) : (s.setBusy b).run = s.run := rfl
@[simp] theorem State.setBusy_mem (b : Option Busy) (s : State) : (s.setBusy b).mem = s.mem := rfl
@[simp] theorem State.setBusy_term (b : Option Busy) (s : State) : (s.setBusy b).term = s.term := rfl
@[simp] theorem State.setBusy_busy (b : Option Busy) (s : State) : (s.setBusy b).busy = b := rfl
@[simp] theorem State.setBusy_cfg (b : Option Busy) (s : State) : (s.setBusy b).cfg = s.cfg := rfl

end Sys2Proof.Machine
end

