-- ==== Sys2Proof/Laws/Registers.lean ====
section
/-! SUPPORT. The register file is eight independent registers (10_state R15). -/

namespace Sys2Proof.Machine

@[simp] theorem RegFile.get_set_same (x : RegFile) (i : Reg) (v : Word) :
    RegFile.get (RegFile.set x i v) i = v := by
  cases i <;> rfl

@[simp] theorem RegFile.get_set_other (x : RegFile) {i j : Reg} (v : Word) (h : j ≠ i) :
    RegFile.get (RegFile.set x i v) j = RegFile.get x j := by
  cases i <;> cases j <;> first | rfl | exact absurd rfl h

/-- Two register files with the same eight values are the same. -/
theorem RegFile.ext_get {x y : RegFile} (h : ∀ i, RegFile.get x i = RegFile.get y i) : x = y := by
  obtain ⟨_, _, _, _, _, _, _, _⟩ := x
  obtain ⟨_, _, _, _, _, _, _, _⟩ := y
  have h0 := h .r0
  have h1 := h .r1
  have h2 := h .r2
  have h3 := h .r3
  have h4 := h .r4
  have h5 := h .r5
  have h6 := h .r6
  have h7 := h .r7
  simp only [RegFile.get] at *
  simp [*]

@[simp] theorem State.reg_setReg_same (s : State) (i : Reg) (v : Word) :
    (s.setReg i v).reg i = v := RegFile.get_set_same ..

@[simp] theorem State.reg_setReg_other (s : State) {i j : Reg} (v : Word) (h : j ≠ i) :
    (s.setReg i v).reg j = s.reg j := RegFile.get_set_other _ _ h

end Sys2Proof.Machine
end

