-- ==== Sys2Proof/Laws/Access.lean ====
section
/-! SUPPORT. What the terminal operations and the memory primitives can do. Later proofs cite
these lemmas and do not unfold the operations. -/

namespace Sys2Proof.Machine

/-- `t` differs from `s` only in what the terminal and the keyboard cells may change: registers,
pc, flags, run state, unfinished work, parameters and every cell but 0xFE00 and 0xFE02 are the
same, the canonical form is kept, and the output only grows (20_memory R30; 43_trap R81). -/
structure OnlyTerminal (s t : State) : Prop where
  x : t.x = s.x
  pc : t.pc = s.pc
  cond : t.cond = s.cond
  run : t.run = s.run
  busy : t.busy = s.busy
  cfg : t.cfg = s.cfg
  cell : ∀ a, a ≠ kbsr → a ≠ kbdr → t.mem.read a = s.mem.read a
  wf : s.mem.wf → t.mem.wf
  out : s.term.out <+: t.term.out
  flushed : s.term.flushed ≤ s.term.out.length → t.term.flushed ≤ t.term.out.length

theorem OnlyTerminal.rfl {s : State} : OnlyTerminal s s :=
  ⟨.refl _, .refl _, .refl _, .refl _, .refl _, .refl _, fun _ _ _ => .refl _, id,
    List.prefix_refl _, id⟩

theorem OnlyTerminal.trans {s t u : State} (h : OnlyTerminal s t) (g : OnlyTerminal t u) :
    OnlyTerminal s u where
  x := g.x.trans h.x
  pc := g.pc.trans h.pc
  cond := g.cond.trans h.cond
  run := g.run.trans h.run
  busy := g.busy.trans h.busy
  cfg := g.cfg.trans h.cfg
  cell a h1 h2 := (g.cell a h1 h2).trans (h.cell a h1 h2)
  wf hm := g.wf (h.wf hm)
  out := h.out.trans g.out
  flushed hf := g.flushed (h.flushed hf)

/-- A change of the terminal that keeps or extends the output. -/
theorem onlyTerminal_setTerm {s : State} {t : Terminal} (h : s.term.out <+: t.out)
    (hf : t.flushed = s.term.flushed ∨ t.flushed = t.out.length) :
    OnlyTerminal s (s.setTerm t) :=
  ⟨rfl, rfl, rfl, rfl, rfl, rfl, fun _ _ _ => rfl, id, h, fun hs => by
    have := h.length_le
    rcases hf with hf | hf <;> simp only [State.setTerm_term] <;> omega⟩

theorem onlyTerminal_pollChar (s : State) : OnlyTerminal s (pollChar s).2 := by
  unfold pollChar
  split <;> exact onlyTerminal_setTerm (List.prefix_refl _) (.inl rfl)

theorem onlyTerminal_readCharBlocking (s : State) : OnlyTerminal s (readCharBlocking s).2 := by
  unfold readCharBlocking
  split
  · exact onlyTerminal_setTerm (List.prefix_refl _) (.inl rfl)
  · exact .rfl

/-- A written byte: accepted and appended, or an I/O error (43_trap R83, R89). -/
theorem writeChar_cases (b : Byte) (s : State) :
    (s.term.outLeft = some 0 ∧ writeChar b s = none) ∨
    (s.term.outLeft ≠ some 0 ∧
      writeChar b s = some (s.setTerm { s.term with
        outLeft := s.term.outLeft.map (· - 1), out := s.term.out ++ [b] })) := by
  unfold writeChar
  split
  · rename_i h; exact .inl ⟨h, rfl⟩
  · rename_i h; exact .inr ⟨h, rfl⟩

theorem onlyTerminal_writeChar {b : Byte} {s t : State} (h : writeChar b s = some t) :
    OnlyTerminal s t := by
  rcases writeChar_cases b s with ⟨-, h'⟩ | ⟨-, h'⟩ <;> rw [h'] at h
  · cases h
  · injection h with h
    exact h ▸ onlyTerminal_setTerm (by simp) (.inl rfl)

theorem onlyTerminal_writeChars (bs : List Byte) (s : State) :
    OnlyTerminal s (writeChars bs s).2 := by
  induction bs generalizing s with
  | nil => exact .rfl
  | cons b bs ih =>
    simp only [writeChars]
    split
    · exact .rfl
    · rename_i h; exact (onlyTerminal_writeChar h).trans (ih _)

/-- Every byte is accepted while enough output operations are left (43_trap R83, R89). -/
theorem writeChars_accepted (bs : List Byte) (s : State)
    (h : ∀ k, s.term.outLeft = some k → bs.length ≤ k) :
    writeChars bs s = (true, s.setTerm { s.term with
      out := s.term.out ++ bs, outLeft := s.term.outLeft.map (· - bs.length) }) := by
  induction bs generalizing s with
  | nil =>
    rcases s with ⟨_, _, _, _, _, ⟨_, _, _, o, _, _⟩, _, _⟩
    cases o <;> simp [writeChars, State.setTerm]
  | cons b bs ih =>
    rcases writeChar_cases b s with ⟨h0, -⟩ | ⟨-, hw⟩
    · have := h _ h0; simp at this
    · simp only [writeChars, hw]
      rw [ih]
      · simp only [State.setTerm, List.append_assoc, List.singleton_append, Option.map_map,
          List.length_cons]
        rcases s.term.outLeft with _ | k
        · rfl
        · simp only [Option.map_some, Function.comp_apply, Nat.sub_sub, Nat.add_comm]
      · intro k hk
        simp only [State.setTerm_term, Option.map_eq_some_iff] at hk
        obtain ⟨j, hj, rfl⟩ := hk
        have := h _ hj
        simp only [List.length_cons] at this
        omega

/-- The bytes before an I/O error are written and remain (43_trap R89). -/
theorem writeChars_refused (bs : List Byte) (s : State) (k : Nat)
    (hk : s.term.outLeft = some k) (h : k < bs.length) :
    writeChars bs s = (false, s.setTerm { s.term with
      out := s.term.out ++ bs.take k, outLeft := some 0 }) := by
  induction bs generalizing s k with
  | nil => simp at h
  | cons b bs ih =>
    rcases writeChar_cases b s with ⟨h0, hw⟩ | ⟨h0, hw⟩
    · obtain rfl : k = 0 := by rw [hk] at h0; injection h0
      rcases s with ⟨_, _, _, _, _, ⟨_, _, _, o, _, _⟩, _, _⟩
      simp only at hk
      subst hk
      simp [writeChars, hw, State.setTerm]
    · rcases k with _ | k
      · exact absurd hk h0
      · simp only [writeChars, hw]
        rw [ih _ k (by simp [hk]) (by simpa using h)]
        simp [State.setTerm]

/-- A flush: accepted, or an I/O error (43_trap R87, R89). -/
theorem flushOut_cases (s : State) :
    (s.term.outLeft = some 0 ∧ flushOut s = none) ∨
    (s.term.outLeft ≠ some 0 ∧
      flushOut s = some (s.setTerm { s.term with
        outLeft := s.term.outLeft.map (· - 1), flushed := s.term.out.length })) := by
  unfold flushOut
  split
  · rename_i h; exact .inl ⟨h, rfl⟩
  · rename_i h; exact .inr ⟨h, rfl⟩

theorem onlyTerminal_flushOut {s t : State} (h : flushOut s = some t) : OnlyTerminal s t := by
  rcases flushOut_cases s with ⟨-, h'⟩ | ⟨-, h'⟩ <;> rw [h'] at h
  · cases h
  · injection h with h
    exact h ▸ onlyTerminal_setTerm (List.prefix_refl _) (.inr rfl)

/-- A write to a keyboard cell. -/
theorem onlyTerminal_setMem_keyboard {s : State} {a v : Word} (h : a = kbsr ∨ a = kbdr) :
    OnlyTerminal s (s.setMem (s.mem.write a v)) :=
  ⟨rfl, rfl, rfl, rfl, rfl, rfl,
    fun b h1 h2 => Memory.read_write_other (by rcases h with rfl | rfl <;> assumption),
    Memory.write_wf, List.prefix_refl _, id⟩

theorem onlyTerminal_kbsrPoll (s : State) : OnlyTerminal s (kbsrPoll s) := by
  refine (onlyTerminal_pollChar s).trans ?_
  simp only [kbsrPoll]
  generalize (pollChar s).2 = t
  split
  · rename_i c _
    have h1 : OnlyTerminal t (t.setMem (t.mem.write kbsr 0x8000)) :=
      onlyTerminal_setMem_keyboard (.inl rfl)
    exact h1.trans (onlyTerminal_setMem_keyboard (s := t.setMem (t.mem.write kbsr 0x8000)) (.inr rfl))
  · split
    · exact onlyTerminal_setMem_keyboard (.inl rfl)
    · exact .rfl

theorem onlyTerminal_kbdrConsume (s : State) : OnlyTerminal s (kbdrConsume s) :=
  onlyTerminal_setMem_keyboard (.inl rfl)

/-- A read changes nothing but the terminal and the keyboard cells. -/
theorem onlyTerminal_memRead (a : Word) (s : State) : OnlyTerminal s (memRead a s).2 := by
  have h : OnlyTerminal s (if a = kbsr then kbsrPoll s else s) := by
    split
    · exact onlyTerminal_kbsrPoll s
    · exact .rfl
  simp only [memRead]
  split
  · exact h.trans (onlyTerminal_kbdrConsume _)
  · exact h

@[simp] theorem memRead_x (a : Word) (s : State) : (memRead a s).2.x = s.x := (onlyTerminal_memRead a s).x
@[simp] theorem memRead_pc (a : Word) (s : State) : (memRead a s).2.pc = s.pc := (onlyTerminal_memRead a s).pc
@[simp] theorem memRead_cond (a : Word) (s : State) : (memRead a s).2.cond = s.cond := (onlyTerminal_memRead a s).cond
@[simp] theorem memRead_run (a : Word) (s : State) : (memRead a s).2.run = s.run := (onlyTerminal_memRead a s).run
@[simp] theorem memRead_busy (a : Word) (s : State) : (memRead a s).2.busy = s.busy := (onlyTerminal_memRead a s).busy
@[simp] theorem memRead_cfg (a : Word) (s : State) : (memRead a s).2.cfg = s.cfg := (onlyTerminal_memRead a s).cfg
@[simp] theorem memRead_reg (a : Word) (s : State) (r : Reg) : (memRead a s).2.reg r = s.reg r := by
  simp only [State.reg, memRead_x]

/-- A read of an ordinary cell has no side effect (20_memory R37). -/
theorem memRead_ordinary {a : Word} (s : State) (h1 : a ≠ kbsr) (h2 : a ≠ kbdr) :
    memRead a s = (s.mem.read a, s) := by
  simp [memRead, h1, h2]

/-- A read of the keyboard data gives the staged character and clears availability (R40). -/
theorem memRead_kbdr (s : State) : memRead kbdr s = (s.mem.read kbdr, kbdrConsume s) := by
  simp [memRead, kbsr, kbdr]

/-- A read of the keyboard status polls first (R39). -/
theorem memRead_kbsr (s : State) : memRead kbsr s = ((kbsrPoll s).mem.read kbsr, kbsrPoll s) := by
  simp [memRead, kbsr, kbdr]

/-- `zext_16` is concatenation with a zero byte (00_scope R11). -/
theorem zext_eq_append : ∀ b : Byte, zext b = 0x00#8 ++ b := by
  decide +kernel

/-- A fetch changes nothing but the pc, the terminal and the keyboard cells. -/
theorem onlyTerminal_fetch (s : State) :
    ∃ t, OnlyTerminal s t ∧ fetch s = ((memRead s.pc s).1, t.setPc (s.pc + 1)) :=
  ⟨_, onlyTerminal_memRead s.pc s, rfl⟩

end Sys2Proof.Machine
end

