-- ==== Sys2Proof/Laws/Encoding.lean ====
section
/-! SUPPORT. Register fields and placed fields, bit by bit. -/

namespace Sys2Proof

@[simp] theorem Reg.ofBits_bits (r : Reg) : Reg.ofBits r.bits = r := by
  cases r <;> rfl

@[simp] theorem Reg.bits_ofBits (b : BitVec 3) : (Reg.ofBits b).bits = b := by
  revert b; decide

/-- A bit of a placed field is the field's bit, that many places lower. -/
@[simp] theorem place_getLsbD {n : Nat} (k i : Nat) (v : BitVec n) :
    (place k v).getLsbD i = (decide (i < 16) && !decide (i < k) && v.getLsbD (i - k)) := by
  simp only [place, BitVec.getLsbD_shiftLeft, BitVec.getLsbD_setWidth]
  by_cases h : i < 16
  · simp [h, show i - k < 16 by omega]
  · simp [h]

@[simp] theorem place_getElem {n : Nat} (k i : Nat) (v : BitVec n) (h : i < 16) :
    (place k v)[i] = (!decide (i < k) && v.getLsbD (i - k)) := by
  rw [← BitVec.getLsbD_eq_getElem, place_getLsbD]
  simp [h]

end Sys2Proof
end

