-- ==== Sys2Proof/Laws/Trap.lean ====
section
/-! SUPPORT. What the trap routines and the TRAP step can do (43_trap). -/

namespace Sys2Proof.Machine

/-- The string routines change nothing but the terminal and the keyboard cells (R84, R86). -/
theorem onlyTerminal_stringLoop (emit : Word → List Byte × Bool) (rest : Word → TrapWork)
    (fuel : Nat) (a : Word) (s : State) :
    OnlyTerminal s (stringLoop emit rest fuel a s).2 := by
  induction fuel generalizing a s with
  | zero => exact .rfl
  | succ n ih =>
    have h1 := onlyTerminal_memRead a s
    have h2 := onlyTerminal_writeChars (emit (memRead a s).1).1 (memRead a s).2
    simp only [stringLoop]
    split
    · rename_i h; rw [h] at h2; exact h1.trans h2
    · rename_i h
      rw [h] at h2
      split
      · exact h1.trans h2
      · exact (h1.trans h2).trans (ih _ _)

/-- The string routines answer that the string ended, that the terminal failed, or that they have
not returned. -/
theorem stringLoop_result (emit : Word → List Byte × Bool) (rest : Word → TrapWork)
    (fuel : Nat) (a : Word) (s : State) :
    (stringLoop emit rest fuel a s).1 = .ok ∨
    (stringLoop emit rest fuel a s).1 = .fault .terminalIOError ∨
    (stringLoop emit rest fuel a s).1 = .unfinished (rest (a + BitVec.ofNat 16 fuel)) := by
  induction fuel generalizing a s with
  | zero => simp [stringLoop]
  | succ n ih =>
    simp only [stringLoop]
    split
    · simp
    · split
      · simp
      · have := ih (a + 1)
        rw [show a + BitVec.ofNat 16 (n + 1) = a + 1 + BitVec.ofNat 16 n by
          rw [BitVec.add_assoc]; congr 1; apply BitVec.eq_of_toNat_eq; simp; omega]
        exact this _

/-- One equation per routine's outcome: everything `continueWork` can do. `t` is what the reads,
the writes and the keyboard made of the state. -/
theorem continueWork_cases (k : TrapWork) (s : State) : ∃ t, OnlyTerminal s t ∧
    (continueWork k s = (.unfinished k, t) ∨
     continueWork k s = (.fault .terminalIOError, t) ∨
     (∃ a, (k = .puts a ∨ k = .putsp a) ∧ continueWork k s = (.ok, t)) ∨
     (∃ c, k = .getc ∧ continueWork k s = (.ok, t.setReg .r0 (zext c))) ∨
     (∃ c, k = .inEcho ∧ continueWork k s = (.ok, writeResult .r0 (zext c) t))) := by
  have lap0 (a : Word) : a + BitVec.ofNat 16 lap = a := by
    simp [lap]
  cases k with
  | getc =>
    have h := onlyTerminal_readCharBlocking s
    simp only [continueWork, getcRead]
    split <;> rename_i e <;> rw [e] at h
    · exact ⟨_, h, by simp⟩
    · exact ⟨_, h, by simp⟩
    · rename_i c _
      exact ⟨_, h, .inr (.inr (.inr (.inl ⟨c, by simp⟩)))⟩
  | inEcho =>
    have h := onlyTerminal_readCharBlocking s
    simp only [continueWork, inRead]
    split <;> rename_i e <;> rw [e] at h
    · exact ⟨_, h, by simp⟩
    · exact ⟨_, h, by simp⟩
    · rename_i c _
      split
      · exact ⟨_, h, by simp⟩
      · rename_i g
        exact ⟨_, h.trans (onlyTerminal_writeChar g), .inr (.inr (.inr (.inr ⟨c, by simp⟩)))⟩
  | puts a =>
    refine ⟨_, onlyTerminal_stringLoop putsEmit .puts lap a s, ?_⟩
    rcases stringLoop_result putsEmit .puts lap a s with h | h | h
    · exact .inr (.inr (.inl ⟨a, .inl rfl, Prod.ext h rfl⟩))
    · exact .inr (.inl (Prod.ext h rfl))
    · rw [lap0] at h; exact .inl (Prod.ext h rfl)
  | putsp a =>
    refine ⟨_, onlyTerminal_stringLoop (putspEmit s.cfg.putspStop) .putsp lap a s, ?_⟩
    rcases stringLoop_result (putspEmit s.cfg.putspStop) .putsp lap a s with h | h | h
    · exact .inr (.inr (.inl ⟨a, .inr rfl, Prod.ext h rfl⟩))
    · exact .inr (.inl (Prod.ext h rfl))
    · rw [lap0] at h; exact .inl (Prod.ext h rfl)

/-- What the trap unit can leave (R81, R88): `t` is what the terminal and the keyboard made of the
state, and only GETC and IN write R0, only IN the flags. -/
theorem trapUnit_cases (v : Byte) (s : State) : ∃ t, OnlyTerminal s t ∧
    ((∃ k, trapUnit v s = (.unfinished k, t)) ∨
     (routineOf v ≠ none ∧ trapUnit v s = (.fault .terminalIOError, t)) ∨
     (routineOf v = none ∧ trapUnit v s = (.fault .unknownTrapVector, s)) ∨
     trapUnit v s = (.ok, t) ∨
     (routineOf v = some .halt ∧ trapUnit v s = (.halt, t)) ∨
     (∃ c, routineOf v = some .getc ∧ trapUnit v s = (.ok, t.setReg .r0 (zext c))) ∨
     (∃ c, routineOf v = some .inp ∧ trapUnit v s = (.ok, writeResult .r0 (zext c) t))) := by
  simp only [trapUnit]
  split <;> rename_i hv
  · obtain ⟨t, ht, h | h | ⟨a, ha | ha, -⟩ | ⟨c, -, h⟩ | ⟨c, ha, -⟩⟩ := continueWork_cases .getc s
    · exact ⟨t, ht, .inl ⟨_, h⟩⟩
    · exact ⟨t, ht, .inr (.inl ⟨by simp [hv], h⟩)⟩
    · cases ha
    · cases ha
    · exact ⟨t, ht, .inr (.inr (.inr (.inr (.inr (.inl ⟨c, hv, h⟩)))))⟩
    · cases ha
  · simp only [outRoutine]
    split
    · exact ⟨s, .rfl, by simp [hv]⟩
    · rename_i h; exact ⟨_, onlyTerminal_writeChar h, by simp⟩
  · obtain ⟨t, ht, h | h | ⟨a, -, h⟩ | ⟨c, ha, -⟩ | ⟨c, ha, -⟩⟩ :=
      continueWork_cases (.puts (s.reg .r0)) s
    · exact ⟨t, ht, .inl ⟨_, h⟩⟩
    · exact ⟨t, ht, .inr (.inl ⟨by simp [hv], h⟩)⟩
    · exact ⟨t, ht, by simp [h]⟩
    · cases ha
    · cases ha
  · have hp := onlyTerminal_writeChars s.cfg.inPrompt s
    simp only [inRoutine]
    split <;> rename_i e <;> rw [e] at hp
    · exact ⟨_, hp, by simp [hv]⟩
    · rename_i s1
      obtain ⟨t, ht, h | h | ⟨a, ha | ha, -⟩ | ⟨c, ha, -⟩ | ⟨c, -, h⟩⟩ := continueWork_cases .inEcho s1
      · exact ⟨t, hp.trans ht, .inl ⟨_, h⟩⟩
      · exact ⟨t, hp.trans ht, .inr (.inl ⟨by simp [hv], h⟩)⟩
      · cases ha
      · cases ha
      · cases ha
      · exact ⟨t, hp.trans ht, .inr (.inr (.inr (.inr (.inr (.inr ⟨c, hv, h⟩)))))⟩
  · obtain ⟨t, ht, h | h | ⟨a, -, h⟩ | ⟨c, ha, -⟩ | ⟨c, ha, -⟩⟩ :=
      continueWork_cases (.putsp (s.reg .r0)) s
    · exact ⟨t, ht, .inl ⟨_, h⟩⟩
    · exact ⟨t, ht, .inr (.inl ⟨by simp [hv], h⟩)⟩
    · exact ⟨t, ht, by simp [h]⟩
    · cases ha
    · cases ha
  · simp only [haltRoutine]
    split
    · exact ⟨s, .rfl, by simp [hv]⟩
    · rename_i h; exact ⟨_, onlyTerminal_flushOut h, by simp [hv]⟩
  · exact ⟨s, .rfl, by simp [hv]⟩

/-- The vectors that select no routine (R81, R88). -/
theorem routineOf_eq_none {v : Byte} : routineOf v = none ↔ v.toNat < 0x20 ∨ 0x25 < v.toNat := by
  revert v; decide +kernel

theorem routineOf_eq_getc {v : Byte} : routineOf v = some .getc ↔ v = 0x20 := by
  revert v; decide +kernel

theorem routineOf_eq_inp {v : Byte} : routineOf v = some .inp ↔ v = 0x23 := by
  revert v; decide +kernel

theorem routineOf_eq_halt {v : Byte} : routineOf v = some .halt ↔ v = 0x25 := by
  revert v; decide +kernel

/-- What the routine of vector `v` leaves unchanged, whatever it answers: every register but R0,
R0 but for GETC and IN, the flags but for IN, pc, run state, parameters, every ordinary cell; the
canonical form is kept and the output only grows (R81). -/
structure TrapFrame (v : Byte) (s t : State) : Prop where
  reg : ∀ r, r ≠ .r0 → t.reg r = s.reg r
  r0 : v ≠ 0x20 → v ≠ 0x23 → t.reg .r0 = s.reg .r0
  pc : t.pc = s.pc
  cond : t.cond = s.cond ∨ (v = 0x23 ∧ t.cond = condOf (t.reg .r0))
  run : t.run = s.run
  busy : t.busy = s.busy
  cfg : t.cfg = s.cfg
  cell : ∀ a, a ≠ kbsr → a ≠ kbdr → t.mem.read a = s.mem.read a
  wf : s.mem.wf → t.mem.wf
  out : s.term.out <+: t.term.out
  flushed : s.term.flushed ≤ s.term.out.length → t.term.flushed ≤ t.term.out.length

theorem TrapFrame.ofTerminal {v : Byte} {s t : State} (h : OnlyTerminal s t) :
    TrapFrame v s t where
  reg r _ := by simp only [State.reg, h.x]
  r0 _ _ := by simp only [State.reg, h.x]
  pc := h.pc
  cond := .inl h.cond
  run := h.run
  busy := h.busy
  cfg := h.cfg
  cell := h.cell
  wf := h.wf
  out := h.out
  flushed := h.flushed

theorem trapUnit_frame (v : Byte) (s : State) : TrapFrame v s (trapUnit v s).2 := by
  obtain ⟨t, ht, ⟨k, h⟩ | ⟨-, h⟩ | ⟨-, h⟩ | h | ⟨-, h⟩ | ⟨c, hv, h⟩ | ⟨c, hv, h⟩⟩ :=
    trapUnit_cases v s <;> simp only [h]
  · exact .ofTerminal ht
  · exact .ofTerminal ht
  · exact .ofTerminal .rfl
  · exact .ofTerminal ht
  · exact .ofTerminal ht
  · rw [routineOf_eq_getc] at hv
    have f := TrapFrame.ofTerminal (v := v) ht
    exact { f with
      reg := fun r hr => (State.reg_setReg_other _ _ hr).trans (f.reg r hr)
      r0 := fun h' => absurd hv h'
      cond := .inl ht.cond }
  · rw [routineOf_eq_inp] at hv
    have f := TrapFrame.ofTerminal (v := v) ht
    exact { f with
      reg := fun r hr => (State.reg_setReg_other _ _ hr).trans (f.reg r hr)
      r0 := fun _ h' => absurd hv h'
      cond := .inr ⟨hv, by simp [writeResult, setcc, State.reg]⟩ }

/-- The link changes R7 only (R80). -/
@[simp] theorem linkR7_x (s : State) : (linkR7 s).x = RegFile.set s.x .r7 s.pc := rfl
@[simp] theorem linkR7_pc (s : State) : (linkR7 s).pc = s.pc := rfl
@[simp] theorem linkR7_cond (s : State) : (linkR7 s).cond = s.cond := rfl
@[simp] theorem linkR7_run (s : State) : (linkR7 s).run = s.run := rfl
@[simp] theorem linkR7_mem (s : State) : (linkR7 s).mem = s.mem := rfl
@[simp] theorem linkR7_term (s : State) : (linkR7 s).term = s.term := rfl
@[simp] theorem linkR7_busy (s : State) : (linkR7 s).busy = s.busy := rfl
@[simp] theorem linkR7_cfg (s : State) : (linkR7 s).cfg = s.cfg := rfl

/-- The TRAP step's ending, one equation per answer of the trap unit (R80). -/
@[simp] theorem finishTrap_ok (w : Word) (t : State) :
    finishTrap w (.ok, t) = t.setBusy none := rfl

@[simp] theorem finishTrap_halt (w : Word) (t : State) :
    finishTrap w (.halt, t) = (t.setBusy none).setRun .halted := rfl

@[simp] theorem finishTrap_fault (w : Word) (k : FaultKind) (t : State) :
    finishTrap w (.fault k, t) = (t.setBusy none).setRun (.faulted ⟨k, t.pc - 1, w⟩) := rfl

@[simp] theorem finishTrap_unfinished (w : Word) (k : TrapWork) (t : State) :
    finishTrap w (.unfinished k, t) = t.setBusy (some ⟨w, k⟩) := rfl

/-- The ending changes the run state and the unfinished work only. -/
@[simp] theorem finishTrap_x (w : Word) (r : TrapResult × State) : (finishTrap w r).x = r.2.x := by
  obtain ⟨r, t⟩ := r; cases r <;> rfl

@[simp] theorem finishTrap_pc (w : Word) (r : TrapResult × State) :
    (finishTrap w r).pc = r.2.pc := by
  obtain ⟨r, t⟩ := r; cases r <;> rfl

@[simp] theorem finishTrap_cond (w : Word) (r : TrapResult × State) :
    (finishTrap w r).cond = r.2.cond := by
  obtain ⟨r, t⟩ := r; cases r <;> rfl

@[simp] theorem finishTrap_mem (w : Word) (r : TrapResult × State) :
    (finishTrap w r).mem = r.2.mem := by
  obtain ⟨r, t⟩ := r; cases r <;> rfl

@[simp] theorem finishTrap_term (w : Word) (r : TrapResult × State) :
    (finishTrap w r).term = r.2.term := by
  obtain ⟨r, t⟩ := r; cases r <;> rfl

@[simp] theorem finishTrap_cfg (w : Word) (r : TrapResult × State) :
    (finishTrap w r).cfg = r.2.cfg := by
  obtain ⟨r, t⟩ := r; cases r <;> rfl

/-- How a TRAP with vector `v` leaves the run state (R80, R87, R88, R89). -/
theorem finishTrap_run_cases (w : Word) (v : Byte) (s : State) :
    (finishTrap w (trapUnit v s)).run = s.run ∨
    (v = 0x25 ∧ (finishTrap w (trapUnit v s)).run = .halted) ∨
    (routineOf v ≠ none ∧
      (finishTrap w (trapUnit v s)).run = .faulted ⟨.terminalIOError, s.pc - 1, w⟩) ∨
    (routineOf v = none ∧
      (finishTrap w (trapUnit v s)).run = .faulted ⟨.unknownTrapVector, s.pc - 1, w⟩) := by
  obtain ⟨t, ht, ⟨k, h⟩ | ⟨hv, h⟩ | ⟨hv, h⟩ | h | ⟨hv, h⟩ | ⟨c, -, h⟩ | ⟨c, -, h⟩⟩ :=
    trapUnit_cases v s <;> simp only [h]
  · exact .inl ht.run
  · exact .inr (.inr (.inl ⟨hv, by simp [ht.pc]⟩))
  · exact .inr (.inr (.inr ⟨hv, by simp⟩))
  · exact .inl ht.run
  · exact .inr (.inl ⟨routineOf_eq_halt.mp hv, rfl⟩)
  · exact .inl ht.run
  · exact .inl ht.run

/-! ### The fault record of a TRAP -/

theorem vectorOf_encode_trap (fx : BitVec 4) (v : Byte) : vectorOf (encode (.trap fx v)) = v := by
  apply BitVec.eq_of_getLsbD_eq
  intro k hk
  interval_cases k <;> simp [vectorOf, encode]

/-- Opcode 1111 is TRAP's alone (30_encoding R47). -/
theorem opcodeOf_encode_eq_trap (i : Instr) :
    opcodeOf (encode i) = 0b1111#4 ↔ ∃ fx v, i = .trap fx v := by
  constructor
  · intro h
    have h0 := congrArg (fun b => BitVec.getLsbD b 0) h
    have h1 := congrArg (fun b => BitVec.getLsbD b 1) h
    have h2 := congrArg (fun b => BitVec.getLsbD b 2) h
    have h3 := congrArg (fun b => BitVec.getLsbD b 3) h
    cases i <;> simp [opcodeOf, encode] at h0 h1 h2 h3 ⊢
  · rintro ⟨fx, v, rfl⟩
    apply BitVec.eq_of_getLsbD_eq
    intro k hk
    interval_cases k <;> simp [opcodeOf, encode]

/-- The vector field of a record (60_exceptions R94). -/
theorem FaultRecord.vect_encode (i : Instr) (k : FaultKind) (a : Word) (v : Byte) :
    (FaultRecord.mk k a (encode i)).vect = some v ↔ ∃ fx, i = .trap fx v := by
  show (if opcodeOf (encode i) = 0b1111#4 then some (vectorOf (encode i)) else none) = some v ↔ _
  by_cases h : opcodeOf (encode i) = 0b1111#4
  · rw [if_pos h]
    obtain ⟨fx, v', rfl⟩ := (opcodeOf_encode_eq_trap i).mp h
    simp [vectorOf_encode_trap]
  · rw [if_neg h]
    refine iff_of_false (by simp) ?_
    rintro ⟨fx, rfl⟩
    exact h ((opcodeOf_encode_eq_trap _).mpr ⟨_, _, rfl⟩)

/-! ### A string routine over several steps -/

theorem pollChar_setBusy (b : Option Busy) (s : State) :
    pollChar (s.setBusy b) = ((pollChar s).1, (pollChar s).2.setBusy b) := by
  simp only [pollChar, State.setBusy_term]; split <;> rfl

theorem kbsrPoll_setBusy (b : Option Busy) (s : State) :
    kbsrPoll (s.setBusy b) = (kbsrPoll s).setBusy b := by
  simp only [kbsrPoll, pollChar_setBusy]
  split
  · rfl
  · simp only [State.setBusy_cfg]; split <;> rfl

theorem memRead_setBusy (b : Option Busy) (a : Word) (s : State) :
    memRead a (s.setBusy b) = ((memRead a s).1, (memRead a s).2.setBusy b) := by
  simp only [memRead, kbsrPoll_setBusy]
  split <;> split <;> rfl

theorem writeChar_setBusy (b : Option Busy) (c : Byte) (s : State) :
    writeChar c (s.setBusy b) = (writeChar c s).map (State.setBusy b) := by
  simp only [writeChar, State.setBusy_term]
  split <;> rfl

theorem writeChars_setBusy (b : Option Busy) (cs : List Byte) (s : State) :
    writeChars cs (s.setBusy b) = ((writeChars cs s).1, (writeChars cs s).2.setBusy b) := by
  induction cs generalizing s with
  | nil => rfl
  | cons c cs ih =>
    simp only [writeChars, writeChar_setBusy]
    cases h : writeChar c s
    · rfl
    · simp only [Option.map_some, ih]

/-- The loop neither reads nor writes `busy`. -/
theorem stringLoop_setBusy (emit : Word → List Byte × Bool) (rest : Word → TrapWork) (n : Nat)
    (a : Word) (b : Option Busy) (s : State) :
    stringLoop emit rest n a (s.setBusy b) =
      ((stringLoop emit rest n a s).1, (stringLoop emit rest n a s).2.setBusy b) := by
  induction n generalizing a s with
  | zero => rfl
  | succ n ih =>
    simp only [stringLoop, memRead_setBusy, writeChars_setBusy]
    rcases writeChars (emit (memRead a s).1).1 (memRead a s).2 with ⟨_ | _, t⟩
    · rfl
    · simp only [ih]; split <;> rfl

theorem add_one_add_ofNat (a : Word) (n : Nat) :
    a + 1 + BitVec.ofNat 16 n = a + BitVec.ofNat 16 (n + 1) := by
  rw [BitVec.add_assoc]; congr 1; apply BitVec.eq_of_toNat_eq; simp; omega

/-- The loop over `n + m` words is the loop over `n`, and, if that has not returned, the loop over
`m` from there. -/
theorem stringLoop_add (emit : Word → List Byte × Bool) (rest : Word → TrapWork) (n m : Nat)
    (a : Word) (s : State) :
    stringLoop emit rest (n + m) a s =
      match stringLoop emit rest n a s with
      | (.unfinished _, t) => stringLoop emit rest m (a + BitVec.ofNat 16 n) t
      | x => x := by
  induction n generalizing a s with
  | zero => simp [stringLoop]
  | succ n ih =>
    rw [Nat.add_right_comm]
    simp only [stringLoop]
    rcases writeChars (emit (memRead a s).1).1 (memRead a s).2 with ⟨_ | _, t⟩
    · rfl
    · simp only [ih]
      split
      · rfl
      · simp only [add_one_add_ofNat]

end Sys2Proof.Machine
end

