-- ==== Sys2Proof/Laws/Exec.lean ====
section
/-! SUPPORT. What one instruction and one step can do. -/

namespace Sys2Proof.Machine

/-- Every instruction answers a next state (60_exceptions R93, R94). -/
theorem exec_next (i : Instr) (s : State) : ∃ t, exec i s = .next t := by
  cases i <;> exact ⟨_, rfl⟩

/-- The fixed-bit check: the fault entry, or the effect (30_encoding R52). -/
theorem checkFixedBits_cases (i : Instr) (s t : State) :
    (s.cfg.strictFixedBits = true ∧ i.wellFormed = false ∧
      checkFixedBits i s t = raiseFault .illegalEncoding (encode i) s) ∨
    ((s.cfg.strictFixedBits = false ∨ i.wellFormed = true) ∧ checkFixedBits i s t = t) := by
  unfold checkFixedBits
  cases s.cfg.strictFixedBits <;> cases i.wellFormed <;> simp

/-- The loads and STI, with the state each read leaves written as a projection. -/
theorem loadInto_eq (dr : Reg) (a : Word) (s : State) :
    loadInto dr a s = writeResult dr (memRead a s).1 (memRead a s).2 := rfl

theorem execLdi_eq (dr : Reg) (off9 : BitVec 9) (s : State) :
    execLdi dr off9 s =
      .next (loadInto dr (memRead (pcRel9 off9 s) s).1 (memRead (pcRel9 off9 s) s).2) := rfl

theorem execSti_eq (sr : Reg) (off9 : BitVec 9) (s : State) :
    execSti sr off9 s =
      .next (memWrite (memRead (pcRel9 off9 s) s).1 ((memRead (pcRel9 off9 s) s).2.reg sr)
        (memRead (pcRel9 off9 s) s).2) := rfl

/-- The fixed-bit check stops an instruction before any write (30_encoding R52). -/
theorem exec_illegal (i : Instr) (s : State) (hs : s.cfg.strictFixedBits = true)
    (hi : i.wellFormed = false) :
    exec i s = .next (raiseFault .illegalEncoding (encode i) s) := by
  have h (t : State) : checkFixedBits i s t = raiseFault .illegalEncoding (encode i) s := by
    simp [checkFixedBits, hs, hi]
  cases i with
  | addReg | andReg | not | jmp | jsrr | trap => exact congrArg Host.Outcome.next (h _)
  | _ => cases hi

/-- Everything an instruction can do. `u` is what the reads of memory made of the state. -/
theorem exec_cases {i : Instr} {s t : State} (h : exec i s = .next t) :
    (s.cfg.strictFixedBits = true ∧ i.wellFormed = false ∧
      t = raiseFault .illegalEncoding (encode i) s) ∨
    ((∃ low, i = .rti low ∨ i = .reserved low) ∧
      t = raiseFault .reservedInstruction (encode i) s) ∨
    (∃ dr v u, OnlyTerminal s u ∧ t = writeResult dr v u) ∨
    (∃ n z p off, i = .br n z p off ∧
      t = if branchTaken n z p s.cond then s.setPc (pcRel9 off s) else s) ∨
    (∃ hi base lo, i = .jmp hi base lo ∧ t = s.setPc (s.reg base)) ∨
    (∃ v, t = (linkR7 s).setPc v) ∨
    (∃ a v u, OnlyTerminal s u ∧ t = memWrite a v u) ∨
    (∃ fx vect, i = .trap fx vect ∧
      t = finishTrap (encode i) (trapUnit vect (linkR7 s))) := by
  have checked {u : State} (e : t = checkFixedBits i s u) :
      (s.cfg.strictFixedBits = true ∧ i.wellFormed = false ∧
        t = raiseFault .illegalEncoding (encode i) s) ∨ t = u := by
    rcases checkFixedBits_cases i s u with ⟨h1, h2, h3⟩ | ⟨-, h3⟩
    · exact .inl ⟨h1, h2, e.trans h3⟩
    · exact .inr (e.trans h3)
  cases i with
  | addReg dr sr1 fx sr2 =>
    injection h with h
    rcases checked h.symm with h | h
    · exact .inl h
    · exact .inr (.inr (.inl ⟨_, _, _, .rfl, h⟩))
  | addImm dr sr1 imm5 => injection h with h; exact .inr (.inr (.inl ⟨_, _, _, .rfl, h.symm⟩))
  | andReg dr sr1 fx sr2 =>
    injection h with h
    rcases checked h.symm with h | h
    · exact .inl h
    · exact .inr (.inr (.inl ⟨_, _, _, .rfl, h⟩))
  | andImm dr sr1 imm5 => injection h with h; exact .inr (.inr (.inl ⟨_, _, _, .rfl, h.symm⟩))
  | not dr sr fx =>
    injection h with h
    rcases checked h.symm with h | h
    · exact .inl h
    · exact .inr (.inr (.inl ⟨_, _, _, .rfl, h⟩))
  | br n z p off =>
    injection h with h
    exact .inr (.inr (.inr (.inl ⟨n, z, p, off, rfl, h.symm⟩)))
  | jmp hi base lo =>
    injection h with h
    rcases checked h.symm with h | h
    · exact .inl h
    · exact .inr (.inr (.inr (.inr (.inl ⟨hi, base, lo, rfl, h⟩))))
  | jsr off => injection h with h; exact .inr (.inr (.inr (.inr (.inr (.inl ⟨_, h.symm⟩)))))
  | jsrr hi base lo =>
    injection h with h
    rcases checked h.symm with h | h
    · exact .inl h
    · exact .inr (.inr (.inr (.inr (.inr (.inl ⟨_, h⟩)))))
  | ld dr off =>
    injection h with h
    exact .inr (.inr (.inl ⟨dr, _, _, onlyTerminal_memRead (pcRel9 off s) s, h.symm⟩))
  | ldi dr off =>
    injection h with h
    exact .inr (.inr (.inl ⟨dr, _, _, (onlyTerminal_memRead (pcRel9 off s) s).trans
      (onlyTerminal_memRead (memRead (pcRel9 off s) s).1 _), h.symm⟩))
  | ldr dr base off =>
    injection h with h
    exact .inr (.inr (.inl ⟨dr, _, _, onlyTerminal_memRead (baseOff6 base off s) s, h.symm⟩))
  | lea dr off => injection h with h; exact .inr (.inr (.inl ⟨_, _, _, .rfl, h.symm⟩))
  | st sr off =>
    injection h with h
    exact .inr (.inr (.inr (.inr (.inr (.inr (.inl ⟨_, _, _, .rfl, h.symm⟩))))))
  | sti sr off =>
    injection h with h
    exact .inr (.inr (.inr (.inr (.inr (.inr (.inl
      ⟨_, _, _, onlyTerminal_memRead _ s, h.symm⟩))))))
  | str sr base off =>
    injection h with h
    exact .inr (.inr (.inr (.inr (.inr (.inr (.inl ⟨_, _, _, .rfl, h.symm⟩))))))
  | trap fx vect =>
    injection h with h
    rcases checked h.symm with h | h
    · exact .inl h
    · exact .inr (.inr (.inr (.inr (.inr (.inr (.inr ⟨fx, vect, rfl, h⟩))))))
  | rti low => injection h with h; exact .inr (.inl ⟨⟨low, .inl rfl⟩, h.symm⟩)
  | reserved low => injection h with h; exact .inr (.inl ⟨⟨low, .inr rfl⟩, h.symm⟩)

/-- Everything a step that answers a next state can be (30_encoding R45). -/
theorem step_cases {s t : State} (h : step s = .next t) :
    s.run = .running ∧
    ((∃ b, s.busy = some b ∧ t = resumeTrap b s) ∨
     (s.busy = none ∧ exec (decode (fetch s).1) (fetch s).2 = .next t)) := by
  unfold step at h
  split at h
  · cases h
  · cases h
  · rename_i hr
    refine ⟨hr, ?_⟩
    split at h
    · rename_i b hb; injection h with h; exact .inl ⟨b, hb, h.symm⟩
    · rename_i hb; exact .inr ⟨hb, h⟩

end Sys2Proof.Machine
end

