-- ==== Sys2Proof/Laws/PerInstr.lean ====
section
/-! SUPPORT. The family `RowWord`: the word of every instruction lies in its row of
spec/opcode_table.json (30_encoding R47), and meets the row's strict test exactly when the
instruction is well formed (R52). -/
namespace Sys2Proof.Laws

/-- A row's mask, match, strict mask and strict match (spec/opcode_table.json); a row without a
strict test repeats its plain test. -/
structure RowTest where
  mask : Word
  value : Word
  strictMask : Word
  strictValue : Word
  deriving DecidableEq, Repr

/-- The row of an instruction in spec/opcode_table.json. -/
def rowTest : Instr → RowTest
  | .addReg _ _ _ _ => ⟨0xF020, 0x1000, 0xF038, 0x1000⟩
  | .addImm _ _ _ => ⟨0xF020, 0x1020, 0xF020, 0x1020⟩
  | .andReg _ _ _ _ => ⟨0xF020, 0x5000, 0xF038, 0x5000⟩
  | .andImm _ _ _ => ⟨0xF020, 0x5020, 0xF020, 0x5020⟩
  | .not _ _ _ => ⟨0xF000, 0x9000, 0xF03F, 0x903F⟩
  | .br _ _ _ _ => ⟨0xF000, 0x0000, 0xF000, 0x0000⟩
  | .jmp _ _ _ => ⟨0xF000, 0xC000, 0xFE3F, 0xC000⟩
  | .jsr _ => ⟨0xF800, 0x4800, 0xF800, 0x4800⟩
  | .jsrr _ _ _ => ⟨0xF800, 0x4000, 0xFE3F, 0x4000⟩
  | .ld _ _ => ⟨0xF000, 0x2000, 0xF000, 0x2000⟩
  | .ldi _ _ => ⟨0xF000, 0xA000, 0xF000, 0xA000⟩
  | .ldr _ _ _ => ⟨0xF000, 0x6000, 0xF000, 0x6000⟩
  | .lea _ _ => ⟨0xF000, 0xE000, 0xF000, 0xE000⟩
  | .st _ _ => ⟨0xF000, 0x3000, 0xF000, 0x3000⟩
  | .sti _ _ => ⟨0xF000, 0xB000, 0xF000, 0xB000⟩
  | .str _ _ _ => ⟨0xF000, 0x7000, 0xF000, 0x7000⟩
  | .trap _ _ => ⟨0xF000, 0xF000, 0xFF00, 0xF000⟩
  | .rti _ => ⟨0xF000, 0x8000, 0xF000, 0x8000⟩
  | .reserved _ => ⟨0xF000, 0xD000, 0xF000, 0xD000⟩

/-- The instruction's word selects its row, and passes the strict test exactly when its fixed bits
are those of R49. -/
def RowWord.Statement (i : Instr) : Prop :=
  encode i &&& (rowTest i).mask = (rowTest i).value ∧
  (encode i &&& (rowTest i).strictMask = (rowTest i).strictValue ↔ i.wellFormed = true)

/-- Read the fixed field `f` at bit `k` off a word that passes a test: each bit of the field is the
bit of the test's value. -/
theorem fixedField {n : Nat} {u v : Word} {g : BitVec n} (f : BitVec n) (k : Nat) (h : u = v)
    (e : ∀ i, i < n → u.getLsbD (k + i) = f.getLsbD i ∧ v.getLsbD (k + i) = g.getLsbD i) :
    f = g := by
  apply BitVec.eq_of_getLsbD_eq
  intro i hi
  rw [← (e i hi).1, h, (e i hi).2]

theorem RowWord.addReg : ∀ dr sr1 fx sr2, RowWord.Statement (.addReg dr sr1 fx sr2) := by
  intro dr sr1 fx sr2
  refine ⟨?_, fun h => ?_, fun h => ?_⟩
  · apply BitVec.eq_of_getLsbD_eq
    intro k hk
    interval_cases k <;> simp [encode, rowTest]
  · simp only [Instr.wellFormed, beq_iff_eq]
    exact fixedField fx 3 h (by intro k hk; interval_cases k <;> simp [encode, rowTest])
  · simp only [Instr.wellFormed, beq_iff_eq] at h
    subst h
    apply BitVec.eq_of_getLsbD_eq
    intro k hk
    interval_cases k <;> simp [encode, rowTest]

theorem RowWord.addImm : ∀ dr sr1 imm5, RowWord.Statement (.addImm dr sr1 imm5) := by
  intro dr sr1 imm5
  have h : encode (.addImm dr sr1 imm5) &&& (rowTest (.addImm dr sr1 imm5)).mask = (rowTest (.addImm dr sr1 imm5)).value := by
    apply BitVec.eq_of_getLsbD_eq
    intro k hk
    interval_cases k <;> simp [encode, rowTest]
  exact ⟨h, iff_of_true h rfl⟩

theorem RowWord.andReg : ∀ dr sr1 fx sr2, RowWord.Statement (.andReg dr sr1 fx sr2) := by
  intro dr sr1 fx sr2
  refine ⟨?_, fun h => ?_, fun h => ?_⟩
  · apply BitVec.eq_of_getLsbD_eq
    intro k hk
    interval_cases k <;> simp [encode, rowTest]
  · simp only [Instr.wellFormed, beq_iff_eq]
    exact fixedField fx 3 h (by intro k hk; interval_cases k <;> simp [encode, rowTest])
  · simp only [Instr.wellFormed, beq_iff_eq] at h
    subst h
    apply BitVec.eq_of_getLsbD_eq
    intro k hk
    interval_cases k <;> simp [encode, rowTest]

theorem RowWord.andImm : ∀ dr sr1 imm5, RowWord.Statement (.andImm dr sr1 imm5) := by
  intro dr sr1 imm5
  have h : encode (.andImm dr sr1 imm5) &&& (rowTest (.andImm dr sr1 imm5)).mask = (rowTest (.andImm dr sr1 imm5)).value := by
    apply BitVec.eq_of_getLsbD_eq
    intro k hk
    interval_cases k <;> simp [encode, rowTest]
  exact ⟨h, iff_of_true h rfl⟩

theorem RowWord.not : ∀ dr sr fx, RowWord.Statement (.not dr sr fx) := by
  intro dr sr fx
  refine ⟨?_, fun h => ?_, fun h => ?_⟩
  · apply BitVec.eq_of_getLsbD_eq
    intro k hk
    interval_cases k <;> simp [encode, rowTest]
  · simp only [Instr.wellFormed, beq_iff_eq]
    exact fixedField fx 0 h (by intro k hk; interval_cases k <;> simp [encode, rowTest])
  · simp only [Instr.wellFormed, beq_iff_eq] at h
    subst h
    apply BitVec.eq_of_getLsbD_eq
    intro k hk
    interval_cases k <;> simp [encode, rowTest]

theorem RowWord.br : ∀ n z p off9, RowWord.Statement (.br n z p off9) := by
  intro n z p off9
  have h : encode (.br n z p off9) &&& (rowTest (.br n z p off9)).mask = (rowTest (.br n z p off9)).value := by
    apply BitVec.eq_of_getLsbD_eq
    intro k hk
    interval_cases k <;> simp [encode, rowTest]
  exact ⟨h, iff_of_true h rfl⟩

theorem RowWord.jmp : ∀ fxHi base fxLo, RowWord.Statement (.jmp fxHi base fxLo) := by
  intro fxHi base fxLo
  refine ⟨?_, fun h => ?_, fun h => ?_⟩
  · apply BitVec.eq_of_getLsbD_eq
    intro k hk
    interval_cases k <;> simp [encode, rowTest]
  · simp only [Instr.wellFormed, Bool.and_eq_true, beq_iff_eq]
    exact ⟨fixedField fxHi 9 h (by intro k hk; interval_cases k <;> simp [encode, rowTest]),
      fixedField fxLo 0 h (by intro k hk; interval_cases k <;> simp [encode, rowTest])⟩
  · simp only [Instr.wellFormed, Bool.and_eq_true, beq_iff_eq] at h
    obtain ⟨rfl, rfl⟩ := h
    apply BitVec.eq_of_getLsbD_eq
    intro k hk
    interval_cases k <;> simp [encode, rowTest]

theorem RowWord.jsr : ∀ off11, RowWord.Statement (.jsr off11) := by
  intro off11
  have h : encode (.jsr off11) &&& (rowTest (.jsr off11)).mask = (rowTest (.jsr off11)).value := by
    apply BitVec.eq_of_getLsbD_eq
    intro k hk
    interval_cases k <;> simp [encode, rowTest]
  exact ⟨h, iff_of_true h rfl⟩

theorem RowWord.jsrr : ∀ fxHi base fxLo, RowWord.Statement (.jsrr fxHi base fxLo) := by
  intro fxHi base fxLo
  refine ⟨?_, fun h => ?_, fun h => ?_⟩
  · apply BitVec.eq_of_getLsbD_eq
    intro k hk
    interval_cases k <;> simp [encode, rowTest]
  · simp only [Instr.wellFormed, Bool.and_eq_true, beq_iff_eq]
    exact ⟨fixedField fxHi 9 h (by intro k hk; interval_cases k <;> simp [encode, rowTest]),
      fixedField fxLo 0 h (by intro k hk; interval_cases k <;> simp [encode, rowTest])⟩
  · simp only [Instr.wellFormed, Bool.and_eq_true, beq_iff_eq] at h
    obtain ⟨rfl, rfl⟩ := h
    apply BitVec.eq_of_getLsbD_eq
    intro k hk
    interval_cases k <;> simp [encode, rowTest]

theorem RowWord.ld : ∀ dr off9, RowWord.Statement (.ld dr off9) := by
  intro dr off9
  have h : encode (.ld dr off9) &&& (rowTest (.ld dr off9)).mask = (rowTest (.ld dr off9)).value := by
    apply BitVec.eq_of_getLsbD_eq
    intro k hk
    interval_cases k <;> simp [encode, rowTest]
  exact ⟨h, iff_of_true h rfl⟩

theorem RowWord.ldi : ∀ dr off9, RowWord.Statement (.ldi dr off9) := by
  intro dr off9
  have h : encode (.ldi dr off9) &&& (rowTest (.ldi dr off9)).mask = (rowTest (.ldi dr off9)).value := by
    apply BitVec.eq_of_getLsbD_eq
    intro k hk
    interval_cases k <;> simp [encode, rowTest]
  exact ⟨h, iff_of_true h rfl⟩

theorem RowWord.ldr : ∀ dr base off6, RowWord.Statement (.ldr dr base off6) := by
  intro dr base off6
  have h : encode (.ldr dr base off6) &&& (rowTest (.ldr dr base off6)).mask = (rowTest (.ldr dr base off6)).value := by
    apply BitVec.eq_of_getLsbD_eq
    intro k hk
    interval_cases k <;> simp [encode, rowTest]
  exact ⟨h, iff_of_true h rfl⟩

theorem RowWord.lea : ∀ dr off9, RowWord.Statement (.lea dr off9) := by
  intro dr off9
  have h : encode (.lea dr off9) &&& (rowTest (.lea dr off9)).mask = (rowTest (.lea dr off9)).value := by
    apply BitVec.eq_of_getLsbD_eq
    intro k hk
    interval_cases k <;> simp [encode, rowTest]
  exact ⟨h, iff_of_true h rfl⟩

theorem RowWord.st : ∀ sr off9, RowWord.Statement (.st sr off9) := by
  intro sr off9
  have h : encode (.st sr off9) &&& (rowTest (.st sr off9)).mask = (rowTest (.st sr off9)).value := by
    apply BitVec.eq_of_getLsbD_eq
    intro k hk
    interval_cases k <;> simp [encode, rowTest]
  exact ⟨h, iff_of_true h rfl⟩

theorem RowWord.sti : ∀ sr off9, RowWord.Statement (.sti sr off9) := by
  intro sr off9
  have h : encode (.sti sr off9) &&& (rowTest (.sti sr off9)).mask = (rowTest (.sti sr off9)).value := by
    apply BitVec.eq_of_getLsbD_eq
    intro k hk
    interval_cases k <;> simp [encode, rowTest]
  exact ⟨h, iff_of_true h rfl⟩

theorem RowWord.str : ∀ sr base off6, RowWord.Statement (.str sr base off6) := by
  intro sr base off6
  have h : encode (.str sr base off6) &&& (rowTest (.str sr base off6)).mask = (rowTest (.str sr base off6)).value := by
    apply BitVec.eq_of_getLsbD_eq
    intro k hk
    interval_cases k <;> simp [encode, rowTest]
  exact ⟨h, iff_of_true h rfl⟩

theorem RowWord.trap : ∀ fx vect, RowWord.Statement (.trap fx vect) := by
  intro fx vect
  refine ⟨?_, fun h => ?_, fun h => ?_⟩
  · apply BitVec.eq_of_getLsbD_eq
    intro k hk
    interval_cases k <;> simp [encode, rowTest]
  · simp only [Instr.wellFormed, beq_iff_eq]
    exact fixedField fx 8 h (by intro k hk; interval_cases k <;> simp [encode, rowTest])
  · simp only [Instr.wellFormed, beq_iff_eq] at h
    subst h
    apply BitVec.eq_of_getLsbD_eq
    intro k hk
    interval_cases k <;> simp [encode, rowTest]

theorem RowWord.rti : ∀ low, RowWord.Statement (.rti low) := by
  intro low
  have h : encode (.rti low) &&& (rowTest (.rti low)).mask = (rowTest (.rti low)).value := by
    apply BitVec.eq_of_getLsbD_eq
    intro k hk
    interval_cases k <;> simp [encode, rowTest]
  exact ⟨h, iff_of_true h rfl⟩

theorem RowWord.reserved : ∀ low, RowWord.Statement (.reserved low) := by
  intro low
  have h : encode (.reserved low) &&& (rowTest (.reserved low)).mask = (rowTest (.reserved low)).value := by
    apply BitVec.eq_of_getLsbD_eq
    intro k hk
    interval_cases k <;> simp [encode, rowTest]
  exact ⟨h, iff_of_true h rfl⟩
end Sys2Proof.Laws
end

