-- ==== Sys2Proof/Tests/Slice0.lean ====
section
/-! SUPPORT. The model's own tests: the well-formedness checks, words decoded, single steps on the
vectors of spec/95_test_vectors.md (named in each docstring), and one witness theorem for every
statement that has hypotheses. Expected values come from the spec. -/

namespace Sys2Proof.Tests

open Sys2Proof.Machine Sys2Proof.Spec

/-! ### Well-formedness: one ill-formed term for each check (30_encoding R52) -/

theorem test_illformed_addReg : (Instr.addReg .r0 .r1 0b11 .r1).wellFormed = false := by decide
theorem test_illformed_andReg : (Instr.andReg .r0 .r1 0b01 .r2).wellFormed = false := by decide
theorem test_illformed_not : (Instr.not .r1 .r1 0b000000).wellFormed = false := by decide
theorem test_illformed_jmp_high : (Instr.jmp 0b100 .r3 0).wellFormed = false := by decide
theorem test_illformed_jmp_low : (Instr.jmp 0 .r3 0b000001).wellFormed = false := by decide
theorem test_illformed_jsrr_high : (Instr.jsrr 0b01 .r4 0).wellFormed = false := by decide
theorem test_illformed_jsrr_low : (Instr.jsrr 0 .r4 0b100000).wellFormed = false := by decide
theorem test_illformed_trap : (Instr.trap 0b0001 0x25).wellFormed = false := by decide

/-! ### Decoding: words from the formats of 30_encoding R49, one per constructor -/

/-- 0001 ddd sss 0 00 ttt with d = 5, s = 2, t = 7. -/
theorem test_decode_addReg : decode 0b0001_101_010_0_00_111 = .addReg .r5 .r2 0 .r7 := by decide
/-- 0001 ddd sss 1 iiiii with i = 10000. -/
theorem test_decode_addImm : decode 0b0001_011_100_1_10000 = .addImm .r3 .r4 0b10000 := by decide
theorem test_decode_andReg : decode 0b0101_110_001_0_00_011 = .andReg .r6 .r1 0 .r3 := by decide
theorem test_decode_andImm : decode 0b0101_001_110_1_01111 = .andImm .r1 .r6 0b01111 := by decide
theorem test_decode_not : decode 0b1001_010_101_111111 = .not .r2 .r5 0b111111 := by decide
theorem test_decode_br : decode 0b0000_1_0_1_100000001 = .br true false true 0b100000001 := by decide
theorem test_decode_jmp : decode 0b1100_000_011_000000 = .jmp 0 .r3 0 := by decide
theorem test_decode_jsr : decode 0b0100_1_10000000001 = .jsr 0b10000000001 := by decide
theorem test_decode_jsrr : decode 0b0100_0_00_100_000000 = .jsrr 0 .r4 0 := by decide
theorem test_decode_ld : decode 0b0010_001_111111111 = .ld .r1 0b111111111 := by decide
theorem test_decode_ldi : decode 0b1010_010_000000101 = .ldi .r2 5 := by decide
theorem test_decode_ldr : decode 0b0110_011_100_111110 = .ldr .r3 .r4 0b111110 := by decide
theorem test_decode_lea : decode 0b1110_111_010000000 = .lea .r7 0b010000000 := by decide
theorem test_decode_st : decode 0b0011_001_000000010 = .st .r1 2 := by decide
theorem test_decode_sti : decode 0b1011_110_000000010 = .sti .r6 2 := by decide
theorem test_decode_str : decode 0b0111_001_010_000001 = .str .r1 .r2 1 := by decide
theorem test_decode_trap : decode 0b1111_0000_00100101 = .trap 0 0x25 := by decide
theorem test_decode_rti : decode 0b1000_000000000001 = .rti 1 := by decide
theorem test_decode_reserved : decode 0b1101_100000000000 = .reserved 0x800 := by decide

/-- The table numbers a word's bits as the word does; a wider word is no instruction (R55). -/
theorem test_decodeTableWord :
    decodeTableWord 16 0xF025 = some (.trap 0 0x25) ∧ decodeTableWord 32 0xF025 = none := by decide

/-! ### Steps on the vectors of spec/95_test_vectors.md -/

/-- A running state at `pc` with the word `w` there, the further cells `cells`, registers and
flags as given, everything else as at reset. -/
def stateAt (pc w : Word) (x : RegFile := ⟨0, 0, 0, 0, 0, 0, 0, 0⟩) (cond : Cond := .Z)
    (cells : List (Word × Word) := []) : State :=
  { State.reset with
    pc := pc, x := x, cond := cond
    mem := cells.foldl (fun m c => m.write c.1 c.2) (Memory.write [] pc w) }

def strict (s : State) : State := { s with cfg := { s.cfg with strictFixedBits := true } }

def withTerm (t : Terminal) (s : State) : State := { s with term := t }

/-- A terminal with these answers to polls and reads, that accepts `outLeft` output operations. -/
def terminal (polls : List (Option Byte)) (reads : List ReadAnswer) (outLeft : Option Nat := none) :
    Terminal :=
  { Terminal.initial with polls := polls, reads := reads, outLeft := outLeft }

/-- What `f` reads in the state after one step. -/
def after {α : Type} (f : State → α) (s : State) : Option α :=
  match step s with
  | .next t => some (f t)
  | _ => none

/-- V2 #1. -/
theorem test_add_register : after (fun t => (t.reg .r0, t.cond, t.pc))
    (stateAt 0x3000 0x1042 ⟨0, 5, 3, 0, 0, 0, 0, 0⟩) = some (8, .P, 0x3001) := by decide
/-- V2 #10. -/
theorem test_add_strict_faults : after (fun t => (t.run, t.reg .r0, t.cond, t.pc))
    (strict (stateAt 0x3000 0x1059 ⟨0, 2, 0, 0, 0, 0, 0, 0⟩)) =
    some (.faulted ⟨.illegalEncoding, 0x3000, 0x1059⟩, 0, .Z, 0x3001) := by decide
/-- V2 #3: a signed overflow wraps. -/
theorem test_add_immediate_wraps : after (fun t => (t.reg .r0, t.cond, t.run))
    (stateAt 0x3000 0x1021 ⟨0x7FFF, 0, 0, 0, 0, 0, 0, 0⟩) = some (0x8000, .N, .running) := by decide
/-- V2 #5: imm5 = -16. -/
theorem test_add_immediate_negative : after (fun t => (t.reg .r0, t.cond))
    (stateAt 0x3000 0x1070 ⟨9, 0x10, 0, 0, 0, 0, 0, 0⟩ .N) = some (0, .Z) := by decide
/-- V2 #13. -/
theorem test_and_register : after (fun t => (t.reg .r0, t.cond))
    (stateAt 0x3000 0x5042 ⟨0, 0xF0F0, 0x8F0F, 0, 0, 0, 0, 0⟩) = some (0x8000, .N) := by decide
/-- V2 #11. -/
theorem test_and_immediate : after (fun t => (t.reg .r0, t.cond))
    (stateAt 0x3000 0x5070 ⟨0, 0xFF, 0, 0, 0, 0, 0, 0⟩) = some (0xF0, .P) := by decide
/-- V2 #19: the pc wraps at the top of memory. -/
theorem test_not_at_top : after (fun t => (t.reg .r0, t.cond, t.pc))
    (stateAt 0xFFFF 0x907F ⟨0, 1, 0, 0, 0, 0, 0, 0⟩) = some (0xFFFE, .N, 0) := by decide
/-- V2 #17: the fixed bits are ignored by default. -/
theorem test_not_ignores_fixed_bits : after (fun t => (t.reg .r1, t.cond))
    (stateAt 0x3000 0x9240 ⟨0, 0xFF, 0, 0, 0, 0, 0, 0⟩) = some (0xFF00, .N) := by decide
/-- V3 #5: the most negative offset. -/
theorem test_br_taken : after (fun t => (t.pc, t.cond))
    (stateAt 0x3000 0x0B00 (cond := .N)) = some (0x2F01, .N) := by decide
/-- V3 #2. -/
theorem test_br_not_taken : after (fun t => (t.pc, t.cond))
    (stateAt 0x3000 0x0802) = some (0x3001, .Z) := by decide
/-- V3 #8. -/
theorem test_jmp : after (fun t => (t.pc, t.cond))
    (stateAt 0x3000 0xC0C0 ⟨0, 0, 0, 0x4000, 0, 0, 0, 0⟩) = some (0x4000, .Z) := by decide
/-- V3 #10. -/
theorem test_jmp_strict_faults : after (fun t => (t.run, t.pc))
    (strict (stateAt 0x3000 0xC0C1 ⟨0, 0, 0, 0x4000, 0, 0, 0, 0⟩)) =
    some (.faulted ⟨.illegalEncoding, 0x3000, 0xC0C1⟩, 0x3001) := by decide
/-- V3 #12: the most negative offset. -/
theorem test_jsr : after (fun t => (t.reg .r7, t.pc))
    (stateAt 0x3000 0x4C00) = some (0x3001, 0x2C01) := by decide
/-- V3 #14. -/
theorem test_jsrr : after (fun t => (t.reg .r7, t.pc))
    (stateAt 0x3000 0x4100 ⟨0, 0, 0, 0, 0x5000, 0, 0, 0⟩) = some (0x3001, 0x5000) := by decide
/-- V3 #15: the link is written before the base is read. -/
theorem test_jsrr_r7 : after (fun t => (t.reg .r7, t.pc))
    (stateAt 0x3000 0x41C0 ⟨0, 0, 0, 0, 0, 0, 0, 0x6000⟩) = some (0x3001, 0x3001) := by decide
/-- V4 #1: LD loads its own word. -/
theorem test_ld : after (fun t => (t.reg .r1, t.cond))
    (stateAt 0x3000 0x23FF) = some (0x23FF, .P) := by decide
/-- V4 #6: LDI through the keyboard status, a key waiting. -/
theorem test_ldi_polls : after (fun t => (t.reg .r2, t.cond, t.mem.read 0xFE00, t.mem.read 0xFE02))
    (withTerm (terminal [some 0x41] [])
      (stateAt 0x3000 0xA405 (cells := [(0x3006, 0xFE00)]))) =
    some (0x8000, .N, 0x8000, 0x41) := by decide
/-- V4 #7: LDI through the keyboard data clears bit 15 of the status. -/
theorem test_ldi_consumes :
    after (fun t => (t.reg .r2, t.mem.read 0xFE00, t.mem.read 0xFE02, t.term.polls))
    (withTerm (terminal [some 0x42] []) (stateAt 0x3000 0xA405
      (cells := [(0x3006, 0xFE02), (0xFE00, 0x8000), (0xFE02, 0x41)]))) =
    some (0x41, 0, 0x41, [some 0x42]) := by decide
/-- V4 #9: the address wraps to 0xFFFF. -/
theorem test_ldr_wraps : after (fun t => (t.reg .r3, t.cond))
    (stateAt 0x3000 0x673E ⟨0, 0, 0, 0, 1, 0, 0, 0⟩ .Z [(0xFFFF, 7)]) = some (7, .P) := by decide
/-- V4 #14: LEA sets the flags and does not read memory. -/
theorem test_lea : after (fun t => (t.reg .r0, t.cond, t.mem.read 0xFE00, t.term.polls))
    (withTerm (terminal [some 0x41] []) (stateAt 0xFD00 0xE0FF (cells := [(0xFE00, 0x1234)]))) =
    some (0xFE00, .N, 0x1234, [some 0x41]) := by decide
/-- V5 #2: a store to the keyboard status is an ordinary write. -/
theorem test_st : after (fun t => (t.mem.read 0xFE00, t.cond, t.term.polls))
    (withTerm (terminal [some 0x41] []) (stateAt 0xFD00 0x32FF ⟨0, 0x1234, 0, 0, 0, 0, 0, 0⟩ .N)) =
    some (0x1234, .N, [some 0x41]) := by decide
/-- V5 #4: a self pointer. -/
theorem test_sti : after (fun t => t.mem.read 0x3003)
    (stateAt 0x3000 0xB202 ⟨0, 0x9999, 0, 0, 0, 0, 0, 0⟩ .Z [(0x3003, 0x3003)]) =
    some 0x9999 := by decide
/-- V5 #7: the store overwrites its own cell; the step is the fetched store. -/
theorem test_str : after (fun t => (t.mem.read 0x3000, t.pc, t.cond))
    (stateAt 0x3000 0x7FFF ⟨0, 0, 0, 0, 0, 0, 0, 0x3001⟩ .P) = some (0x3001, 0x3001, .P) := by decide

/-- V6 #1. -/
theorem test_trap_halt : after (fun t => (t.reg .r7, t.run, t.pc))
    (stateAt 0x3000 0xF025) = some (0x3001, .halted, 0x3001) := by decide
/-- V6 #2. -/
theorem test_trap_getc : after (fun t => (t.reg .r0, t.reg .r7, t.cond, t.term.out))
    (withTerm (terminal [] [.byte 0x78]) (stateAt 0x3000 0xF020 (cond := .N))) =
    some (0x78, 0x3001, .N, []) := by decide
/-- V6 #15. -/
theorem test_trap_getc_error : after (fun t => (t.reg .r0, t.reg .r7, t.run))
    (withTerm (terminal [] [.ioError]) (stateAt 0x3000 0xF020)) =
    some (0, 0x3001, .faulted ⟨.terminalIOError, 0x3000, 0xF020⟩) := by decide
/-- V6 #3. -/
theorem test_trap_out : after (fun t => (t.term.out, t.reg .r0))
    (stateAt 0x3000 0xF021 ⟨0x1241, 0, 0, 0, 0, 0, 0, 0⟩) = some ([0x41], 0x1241) := by decide
/-- V6 #5: the high byte is dropped. -/
theorem test_trap_puts : after (fun t => (t.term.out, t.reg .r0, t.busy))
    (stateAt 0x3000 0xF022 ⟨0x4000, 0, 0, 0, 0, 0, 0, 0⟩ .Z [(0x4000, 0x0141)]) =
    some ([0x41], 0x4000, none) := by decide
/-- V6 #7: prompt and echo. -/
theorem test_trap_in : after (fun t => (t.term.out, t.reg .r0, t.cond))
    (withTerm (terminal [] [.byte 0x71]) { stateAt 0x3000 0xF023 with
      cfg := { Config.default with inPrompt := [0x3E, 0x20] } }) =
    some ([0x3E, 0x20, 0x71], 0x71, .P) := by decide
/-- V6 #8. -/
theorem test_trap_in_zero : after (fun t => (t.term.out, t.reg .r0, t.cond))
    (withTerm (terminal [] [.byte 0]) (stateAt 0x3000 0xF023 (cond := .P))) =
    some ([0], 0, .Z) := by decide
/-- V6 #10, under zero_word and under zero_byte. -/
theorem test_trap_putsp_stop :
    let s := stateAt 0x3000 0xF024 ⟨0x4000, 0, 0, 0, 0, 0, 0, 0⟩ .Z [(0x4000, 0x48), (0x4001, 0x69)]
    after (fun t => (t.term.out, t.busy)) s = some ([0x48, 0x69], none) ∧
    after (fun t => (t.term.out, t.busy))
      { s with cfg := { Config.default with putspStop := .zeroByte } } =
      some ([0x48], none) := by decide
/-- V6 #9: low byte first. -/
theorem test_trap_putsp_packed : after (fun t => t.term.out)
    (stateAt 0x3000 0xF024 ⟨0x4000, 0, 0, 0, 0, 0, 0, 0⟩ .Z [(0x4000, 0x6948), (0x4001, 0x21)]) =
    some [0x48, 0x69, 0x21] := by decide
/-- V6 #11. -/
theorem test_trap_unknown : after (fun t => (t.reg .r7, t.run, t.pc))
    (stateAt 0x3000 0xF026) =
    some (0x3001, .faulted ⟨.unknownTrapVector, 0x3000, 0xF026⟩, 0x3001) := by decide
/-- V6 #14: R7 is not written. -/
theorem test_trap_strict_faults : after (fun t => (t.reg .r7, t.run, t.pc))
    (strict (stateAt 0x3000 0xF125)) =
    some (0, .faulted ⟨.illegalEncoding, 0x3000, 0xF125⟩, 0x3001) := by decide
/-- V7, `retain`: a poll without a key keeps the status. -/
theorem test_poll_retain : after (fun t => (t.reg .r0, t.cond, t.mem.read 0xFE00))
    (withTerm (terminal [none] []) { stateAt 0x3001 0xA000
      (cells := [(0x3002, 0xFE00), (0xFE00, 0x8000), (0xFE02, 0x41)]) with
      cfg := { Config.default with kbsrEmptyPoll := .retain } }) =
    some (0x8000, .N, 0x8000) := by decide
/-- V7, `clear`. -/
theorem test_poll_clear : after (fun t => (t.reg .r0, t.cond, t.mem.read 0xFE00, t.mem.read 0xFE02))
    (withTerm (terminal [none] []) (stateAt 0x3001 0xA000
      (cells := [(0x3002, 0xFE00), (0xFE00, 0x8000), (0xFE02, 0x41)]))) =
    some (0, .Z, 0, 0x41) := by decide
/-- V8 #2: also under STRICT_FIXED_BITS. -/
theorem test_rti : after (fun t => (t.run, t.pc, t.reg .r7)) (strict (stateAt 0x3000 0x8ABC)) =
    some (.faulted ⟨.reservedInstruction, 0x3000, 0x8ABC⟩, 0x3001, 0) := by decide
/-- V8 #3. -/
theorem test_reserved : after (fun t => (t.run, t.pc)) (stateAt 0x3001 0xD123) =
    some (.faulted ⟨.reservedInstruction, 0x3001, 0xD123⟩, 0x3002) := by decide

/-- A read with no answer waits, R7 written and R0 not, and goes on when the answer comes (43_trap
R89). -/
theorem test_getc_waits :
    after (fun t => (t.busy, t.reg .r7, t.reg .r0)) (stateAt 0x3000 0xF020) =
      some (some ⟨0xF020, .getc⟩, 0x3001, 0) ∧
    after (fun t => (t.reg .r0, t.pc, t.busy))
      (withTerm (terminal [] [.byte 0x78])
        { State.reset with pc := 0x3001, busy := some ⟨0xF020, .getc⟩ }) =
      some (0x78, 0x3001, none) := by decide

/-- The host's way to place a word, as the first instruction after reset, and at 0xFE00. -/
theorem test_withFetchWord :
    after (fun t => (t.reg .r0, t.pc)) (State.reset.withFetchWord 16 0x1021) = some (1, 0x3001) ∧
    after (fun t => (t.reg .r0, t.pc))
      (({ State.reset with pc := 0xFE00 } : State).withFetchWord 16 0x1021) =
      some (1, 0xFE01) := by decide

/-- S7: the image `30 00 12 34 56 78`. -/
theorem test_load_image :
    (match boot Config.default Terminal.initial [some [0x30, 0x00, 0x12, 0x34, 0x56, 0x78]] with
      | .ok s => some (s.mem.read 0x3000, s.mem.read 0x3001, s.mem.read 0x3002, s.pc, s.cond)
      | .error _ => none) = some (0x1234, 0x5678, 0, 0x3000, .Z) := by decide

/-- V1: sign extension. -/
theorem test_sign_extension :
    sext (0x10 : BitVec 5) = 0xFFF0 ∧ sext (0x20 : BitVec 6) = 0xFFE0 ∧
    sext (0x100 : BitVec 9) = 0xFF00 ∧ sext (0x3FF : BitVec 11) = 0x03FF := by decide

/-! ### Witnesses: states and operands that meet the hypotheses of each statement

`witness_<Name>` is for `Obligations.<Name>`; a statement without hypotheses has none. -/

/-- Register `r` holds `v`, the others 0. -/
def regs (r : Reg) (v : Word) : RegFile := RegFile.set ⟨0, 0, 0, 0, 0, 0, 0, 0⟩ r v

def lax : State := State.reset
def checkedState : State := strict State.reset

theorem memory_reset_wf : State.reset.mem.wf := ⟨.nil, by simp [State.reset, State.start]⟩

theorem accepts_of_none {t : Terminal} {n : Nat} (h : t.outLeft = none) : Accepts t n := by
  intro k hk; rw [h] at hk; cases hk

theorem accepts_of_some {t : Terminal} {n k : Nat} (h : t.outLeft = some k) (hn : n ≤ k) :
    Accepts t n := by
  intro j hj; rw [h] at hj; cases hj; exact hn

/-- A word that fails its row's strict test. -/
theorem witness_EveryWordSelectsExactlyOneRow :
    checkedState.cfg.strictFixedBits = true ∧
    rows[rowOf (decode 0x1059)]? = some ⟨0xF020, 0x1000, 0xF038, 0x1000⟩ ∧
    (0x1059 : Word) &&& 0xF038 ≠ 0x1000 := by decide

/-- One deviating instruction of each of the six forms. -/
theorem witness_FixedBitsAreIgnoredOrChecked :
    lax.cfg.strictFixedBits = false ∧ checkedState.cfg.strictFixedBits = true ∧
    (∃ dr sr1 fx sr2, Instr.addReg .r0 .r1 0b11 .r1 = .addReg dr sr1 fx sr2 ∧ fx ≠ 0b00#2) ∧
    (∃ dr sr1 fx sr2, Instr.andReg .r0 .r1 0b01 .r1 = .andReg dr sr1 fx sr2 ∧ fx ≠ 0b00#2) ∧
    (∃ dr sr fx, Instr.not .r1 .r1 0 = .not dr sr fx ∧ fx ≠ 0b111111#6) ∧
    (∃ hi base lo, Instr.jmp 0 .r3 1 = .jmp hi base lo ∧ (hi ≠ 0b000#3 ∨ lo ≠ 0b000000#6)) ∧
    (∃ hi base lo, Instr.jsrr 1 .r3 0 = .jsrr hi base lo ∧ (hi ≠ 0b00#2 ∨ lo ≠ 0b000000#6)) ∧
    (∃ fx v, Instr.trap 1 0x25 = .trap fx v ∧ fx ≠ 0b0000#4) :=
  ⟨rfl, rfl, ⟨_, _, _, _, rfl, by decide⟩, ⟨_, _, _, _, rfl, by decide⟩,
    ⟨_, _, _, rfl, by decide⟩, ⟨_, _, _, rfl, by decide⟩, ⟨_, _, _, rfl, by decide⟩,
    ⟨_, _, rfl, by decide⟩⟩

/-- At the two ends of the address space. -/
theorem witness_MemWriteSetsOneCellOnly :
    State.reset.mem.wf ∧ (0x0000 : Word) ≠ 0xFFFF ∧ (0xFFFF : Word) ≠ 0x0000 :=
  ⟨memory_reset_wf, by decide, by decide⟩

/-- The neighbours of the two keyboard cells and the cell between them. -/
theorem witness_MemReadHasTheKeyboardSideEffects :
    ∀ a ∈ ([0x0000, 0xFDFF, 0xFE01, 0xFE03, 0xFFFF] : List Word), a ≠ 0xFE00 ∧ a ≠ 0xFE02 := by
  simp

/-- A key, and no key under either parameter; a cell that stays. -/
theorem witness_PollSetsStatusAndStagesTheKey :
    let key := withTerm (terminal [some 0x00] []) State.reset
    let noKey := withTerm (terminal [none] []) State.reset
    let retain : State := { noKey with cfg := { noKey.cfg with kbsrEmptyPoll := .retain } }
    (key.mem.wf ∧ key.term.polls = some 0x00 :: [] ∧ (pollChar key).1 = some 0x00) ∧
    (noKey.mem.wf ∧ (pollChar noKey).1 = none ∧ noKey.cfg.kbsrEmptyPoll = .clear) ∧
    (retain.mem.wf ∧ (pollChar retain).1 = none ∧ retain.cfg.kbsrEmptyPoll = .retain) ∧
    (0xFE01 : Word) ≠ 0xFE00 ∧ (0xFE01 : Word) ≠ 0xFE02 :=
  ⟨⟨memory_reset_wf, rfl, rfl⟩, ⟨memory_reset_wf, rfl, rfl⟩, ⟨memory_reset_wf, rfl, rfl⟩,
    by decide, by decide⟩

theorem witness_KeyboardDataReadClearsAvailability :
    State.reset.mem.wf ∧ (0xFE02 : Word) ≠ 0xFE00 ∧ (0xFE01 : Word) ≠ 0xFE00 :=
  ⟨memory_reset_wf, by decide, by decide⟩

/-- Unchecked with deviating bits, checked with right bits, checked with deviating bits. -/
theorem witness_AddWritesTheSum :
    FixedOk lax ((0b11#2) = 0b00#2) ∧ FixedOk checkedState ((0b00#2) = 0b00#2) ∧
    (checkedState.cfg.strictFixedBits = true ∧ (0b11#2) ≠ 0b00#2) :=
  ⟨.inl rfl, .inr rfl, rfl, by decide⟩

theorem witness_AndWritesTheBitwiseAnd :
    FixedOk lax ((0b01#2) = 0b00#2) ∧ FixedOk checkedState ((0b00#2) = 0b00#2) ∧
    (checkedState.cfg.strictFixedBits = true ∧ (0b01#2) ≠ 0b00#2) :=
  ⟨.inl rfl, .inr rfl, rfl, by decide⟩

theorem witness_NotWritesTheComplement :
    FixedOk lax ((0b000000#6) = 0b111111#6) ∧ FixedOk checkedState ((0b111111#6) = 0b111111#6) ∧
    (checkedState.cfg.strictFixedBits = true ∧ (0b111110#6) ≠ 0b111111#6) :=
  ⟨.inl rfl, .inr rfl, rfl, by decide⟩

theorem witness_SumsWrapAndSubtractionIsNotAddAdd : (Reg.r1) ≠ .r0 := by decide

/-- Each flag with its branch taken, and none taken. -/
theorem witness_BranchTestsTheFlags :
    (∀ c : Cond, (true = true ∧ c = .N) ∨ (true = true ∧ c = .Z) ∨ (true = true ∧ c = .P)) ∧
    ¬ ((true = true ∧ State.reset.cond = .N) ∨ (false = true ∧ State.reset.cond = .Z) ∨
      (true = true ∧ State.reset.cond = .P)) := by
  refine ⟨fun c => by cases c <;> simp, by decide⟩

theorem witness_JumpGoesToTheBaseRegister :
    FixedOk lax ((0b001#3) = 0b000#3 ∧ (0b000001#6) = 0b000000#6) ∧
    FixedOk checkedState ((0b000#3) = 0b000#3 ∧ (0b000000#6) = 0b000000#6) ∧
    (checkedState.cfg.strictFixedBits = true ∧ ((0b000#3) ≠ 0b000#3 ∨ (0b000001#6) ≠ 0b000000#6)) :=
  ⟨.inl rfl, .inr ⟨rfl, rfl⟩, rfl, .inr (by decide)⟩

theorem witness_JsrrLinksThenReadsTheBase :
    (FixedOk lax ((0b01#2) = 0b00#2 ∧ (0b000000#6) = 0b000000#6) ∧ Reg.r6 ≠ .r7) ∧
    FixedOk checkedState ((0b00#2) = 0b00#2 ∧ (0b000000#6) = 0b000000#6) ∧
    (checkedState.cfg.strictFixedBits = true ∧ ((0b10#2) ≠ 0b00#2 ∨ (0b000000#6) ≠ 0b000000#6)) :=
  ⟨⟨.inl rfl, by decide⟩, .inr ⟨rfl, rfl⟩, rfl, .inl (by decide)⟩

/-- At the cell between the keyboard cells. -/
theorem witness_LdLoadsThePcRelativeCell :
    let s : State := { State.reset with pc := 0xFE00 }
    s.pc + sext (1 : BitVec 9) ≠ 0xFE00 ∧ s.pc + sext (1 : BitVec 9) ≠ 0xFE02 := by decide

theorem witness_LdiLoadsThroughThePointer :
    let s := stateAt 0x3001 0 (cells := [(0x3006, 0xFE01)])
    (∃ p s1 v s2, memRead (s.pc + sext (5 : BitVec 9)) s = (p, s1) ∧ memRead p s1 = (v, s2)) ∧
    s.pc + sext (5 : BitVec 9) ≠ 0xFE00 ∧ s.pc + sext (5 : BitVec 9) ≠ 0xFE02 ∧
    s.mem.read (s.pc + sext (5 : BitVec 9)) = 0xFE01 ∧ (0xFE01 : Word) ≠ 0xFE00 ∧
    (0xFE01 : Word) ≠ 0xFE02 :=
  ⟨⟨_, _, _, _, rfl, rfl⟩, by decide⟩

/-- The wrapped address of vector V4 #9. -/
theorem witness_LdrLoadsTheBaseOffsetCell :
    let s : State := { State.reset with x := regs .r4 1 }
    s.reg .r4 + sext (0b111110 : BitVec 6) = 0xFFFF ∧
    s.reg .r4 + sext (0b111110 : BitVec 6) ≠ 0xFE00 ∧
    s.reg .r4 + sext (0b111110 : BitVec 6) ≠ 0xFE02 := by decide

theorem witness_StStoresThePcRelativeCell :
    State.reset.mem.wf ∧ (0x3003 : Word) ≠ pcRel9 2 State.reset :=
  ⟨memory_reset_wf, by decide⟩

theorem witness_StiStoresThroughThePointer :
    (∃ p s1, memRead (State.reset.pc + sext (2 : BitVec 9)) State.reset = (p, s1)) ∧
    State.reset.mem.wf ∧ State.reset.pc + sext (2 : BitVec 9) ≠ 0xFE00 ∧
    State.reset.pc + sext (2 : BitVec 9) ≠ 0xFE02 :=
  ⟨⟨_, _, rfl⟩, memory_reset_wf, by decide, by decide⟩

theorem witness_StrStoresTheBaseOffsetCell :
    State.reset.mem.wf ∧ (0x0000 : Word) ≠ baseOff6 .r1 0b111111 State.reset :=
  ⟨memory_reset_wf, by decide⟩

/-- Every statement about a TRAP meets its fixed-bit hypothesis both ways. -/
theorem witness_TrapLinksAndEndsAsTheRoutineAnswers :
    FixedOk lax ((0b1111#4) = 0b0000#4) ∧ FixedOk checkedState ((0b0000#4) = 0b0000#4) ∧
    (checkedState.cfg.strictFixedBits = true ∧ (0b0001#4) ≠ 0b0000#4) ∧
    Reg.r1 ≠ .r7 ∧ Reg.r1 ≠ .r0 ∧ (0x21 : Byte) ≠ 0x20 ∧ (0x22 : Byte) ≠ 0x23 ∧
    (∃ u, trapUnit 0x21 (linked lax) = (.ok, u)) ∧
    (∃ u, trapUnit 0x25 (linked lax) = (.halt, u)) ∧
    ∃ k u, trapUnit 0x26 (linked lax) = (.fault k, u) :=
  ⟨.inl rfl, .inr rfl, ⟨rfl, by decide⟩, by decide, by decide, by decide, by decide,
    ⟨_, rfl⟩, ⟨_, rfl⟩, _, _, rfl⟩

theorem witness_GetcReadsOneCharacter :
    FixedOk lax ((0b0001#4) = 0b0000#4) ∧
    (withTerm (terminal [] [.byte 0xFF]) lax).term.reads = .byte 0xFF :: [] ∧
    (withTerm (terminal [] [.ioError]) lax).term.reads = .ioError :: [] :=
  ⟨.inl rfl, rfl, rfl⟩

/-- The last accepted byte, and the first refused one. -/
theorem witness_OutWritesTheLowByteOfR0 :
    FixedOk lax ((0b0000#4) = 0b0000#4) ∧ Accepts (terminal [] [] (some 1)) 1 ∧
    ¬ Accepts (terminal [] [] (some 0)) 1 :=
  ⟨.inl rfl, accepts_of_some rfl (by decide), fun h => absurd (h 0 rfl) (by decide)⟩

/-- The loop of an empty string ends. -/
theorem witness_PutsRunsItsLoopToTheEndOrForever :
    State.reset.run = .running ∧ FixedOk State.reset ((0b0000#4) = 0b0000#4) ∧
    PutsLoop (State.reset.reg .r0) (linked State.reset) .ok (linked State.reset) :=
  ⟨rfl, .inl rfl, .zero rfl⟩

/-- Two words up to the cell before the keyboard status, with output for both and for one. -/
theorem witness_PutsWritesTheLowBytesOfAString :
    let s := stateAt 0x3000 0 (regs .r0 0xFDFD) .Z [(0xFDFD, 0x4F), (0xFDFE, 0x4B)]
    FixedOk s ((0b0000#4) = 0b0000#4) ∧ StringAt s.mem (s.reg .r0) [0x4F, 0x4B] ∧
    Accepts (terminal [] [] (some 2)) ([0x4F, 0x4B] : List Word).length ∧
    ((terminal [] [] (some 1)).outLeft = some 1 ∧ 1 < ([0x4F, 0x4B] : List Word).length) := by
  refine ⟨.inl rfl, ?_, accepts_of_some rfl (by decide), rfl, by decide⟩
  simp only [StringAt]
  decide

theorem witness_InPromptsReadsEchoesAndSetsFlags :
    let cfg : Config := { Config.default with inPrompt := [0x3E, 0x20] }
    let s (reads : List ReadAnswer) (left : Option Nat) : State :=
      { State.reset with cfg := cfg, term := terminal [] reads left }
    FixedOk (s [] none) ((0b0000#4) = 0b0000#4) ∧
    ((s [.byte 0] (some 3)).term.reads = .byte 0 :: [] ∧
      Accepts (s [.byte 0] (some 3)).term (cfg.inPrompt.length + 1)) ∧
    ((s [.ioError] (some 2)).term.reads = .ioError :: [] ∧
      Accepts (s [.ioError] (some 2)).term cfg.inPrompt.length) ∧
    ((s [.byte 1] (some 2)).term.reads = .byte 1 :: [] ∧
      (s [.byte 1] (some 2)).term.outLeft = some cfg.inPrompt.length) ∧
    ((s [] (some 1)).term.outLeft = some 1 ∧ 1 < cfg.inPrompt.length) :=
  ⟨.inl rfl, ⟨rfl, accepts_of_some rfl (by decide)⟩, ⟨rfl, accepts_of_some rfl (by decide)⟩,
    ⟨rfl, rfl⟩, rfl, by decide⟩

theorem witness_PutspRunsItsLoopToTheEndOrForever :
    State.reset.run = .running ∧ FixedOk State.reset ((0b0000#4) = 0b0000#4) ∧
    PutspLoop .zeroWord (State.reset.reg .r0) (linked State.reset) .ok (linked State.reset) ∧
    PutspLoop .zeroByte (State.reset.reg .r0) (linked State.reset) .ok (linked State.reset) :=
  ⟨rfl, .inl rfl, .ends rfl rfl, .ends (.inl rfl) rfl⟩

/-- The string "Hi!" of vector V6 #9. -/
theorem witness_PutspWritesBothBytesOfAString :
    let s := stateAt 0x3000 0 (regs .r0 0x4000) .Z [(0x4000, 0x6948), (0x4001, 0x21)]
    FixedOk s ((0b0000#4) = 0b0000#4) ∧ s.cfg.putspStop = .zeroWord ∧
    StringAt s.mem (s.reg .r0) [0x6948, 0x21] ∧
    Accepts s.term (([0x6948, 0x21] : List Word).flatMap (putspBytes .zeroWord)).length := by
  refine ⟨.inl rfl, rfl, ?_, accepts_of_none rfl⟩
  simp only [StringAt]
  decide

theorem witness_PutspReadingsAgreeOnPackedStrings :
    let s := stateAt 0x3000 0 (regs .r0 0x4000) .Z [(0x4000, 0x6948), (0x4001, 0x21)]
    StringAt s.mem (s.reg .r0) [0x6948, 0x21] ∧ BothReadingsAgree [0x6948, 0x21] := by
  simp only [StringAt, BothReadingsAgree]
  decide

theorem witness_HaltFlushesAndEndsTheRun :
    FixedOk lax ((0b0001#4) = 0b0000#4) ∧ Accepts (terminal [] [] (some 1)) 1 :=
  ⟨.inl rfl, accepts_of_some rfl (by decide)⟩

/-- The vectors next to the six routines, and the two ends. -/
theorem witness_UnknownVectorFaultsAfterTheLink :
    FixedOk lax ((0b0000#4) = 0b0000#4) ∧
    ∀ v ∈ ([0x00, 0x1F, 0x26, 0xFF] : List Byte), ¬ KnownVector v := by
  refine ⟨.inl rfl, ?_⟩
  simp [KnownVector]

/-- An I/O error of each of the six routines; of a routine that faults; a wait that goes on. -/
theorem witness_TerminalErrorsFaultAndSilenceWaits :
    let readFails := withTerm (terminal [] [.ioError]) State.reset
    let full := withTerm (terminal [] [] (some 0))
      { stateAt 0x3000 0 (regs .r0 0x4000) .Z [(0x4000, 0x41)] with
        cfg := { Config.default with inPrompt := [0x3E] } }
    let waiting (reads : List ReadAnswer) (k : TrapWork) : State :=
      { State.reset with term := terminal [] reads, busy := some ⟨0xF020, k⟩ }
    FixedOk readFails ((0b0000#4) = 0b0000#4) ∧ FixedOk full ((0b0000#4) = 0b0000#4) ∧
    (readFails.term.reads = .ioError :: [] ∧
      Accepts readFails.term readFails.cfg.inPrompt.length) ∧
    (full.term.outLeft = some 0 ∧ full.cfg.inPrompt ≠ [] ∧ full.reg .r0 ≠ 0xFE00 ∧
      full.mem.read (full.reg .r0) ≠ 0 ∧ lowByte (full.mem.read (full.reg .r0)) ≠ 0) ∧
    (full.run = .running ∧ ∃ t r, exec (.trap 0 0x21) full = .next t ∧ t.run = .faulted r ∧
      r.kind = .terminalIOError) ∧
    (∀ k, (waiting [] k).run = .running ∧ (waiting [] k).busy = some ⟨0xF020, k⟩ ∧
      (waiting [] k).term.reads = [] ∧
      (waiting [.byte 0x78] k).term.reads = .byte 0x78 :: [] ∧
      (waiting [.ioError] k).term.reads = .ioError :: []) ∧
    (Accepts (terminal [] [.byte 0x78] (some 1)) 1 ∧
      ¬ Accepts (terminal [] [.byte 0x78] (some 0)) 1) :=
  ⟨.inl rfl, .inl rfl, ⟨rfl, accepts_of_none rfl⟩, by decide, ⟨rfl, _, _, rfl, rfl, rfl⟩,
    fun _ => ⟨rfl, rfl, rfl, rfl, rfl⟩, accepts_of_some rfl (by decide),
    fun h => absurd (h 0 rfl) (by decide)⟩

/-- One instruction for each kind of fault. -/
theorem witness_FaultsAreThoseOfTheTable :
    Illegal (.not .r1 .r1 0) checkedState ∧
    (checkedState.run = .running ∧
      ∃ t r, exec (.not .r1 .r1 0) checkedState = .next t ∧ t.run = .faulted r) ∧
    (∃ t r, exec (.rti 0xABC) State.reset = .next t ∧ t.run = .faulted r) ∧
    (¬ Illegal (.trap 0 0x26) checkedState ∧ ¬ KnownVector 0x26 ∧ ¬ KnownVector 0x1F ∧
      ∃ t r, exec (.trap 0 0x26) checkedState = .next t ∧ t.run = .faulted r) ∧
    (KnownVector 0x20 ∧ KnownVector 0x25 ∧
      ∃ t r, exec (.trap 0 0x20) (withTerm (terminal [] [.ioError]) State.reset) = .next t ∧
        t.run = .faulted r) :=
  ⟨⟨rfl, rfl⟩, ⟨rfl, _, _, rfl, rfl⟩, ⟨_, _, rfl, rfl⟩,
    ⟨fun h => absurd h.2 (by decide), by simp [KnownVector], by simp [KnownVector], _, _, rfl, rfl⟩,
    by simp [KnownVector], by simp [KnownVector], _, _, rfl, rfl⟩

/-- A step at the neighbours of the keyboard cells, and the two stops. -/
theorem witness_StepRunsTheDecodedInstruction :
    (∀ pc ∈ ([0x0000, 0xFDFF, 0xFE01, 0xFE03, 0xFFFF] : List Word),
      (stateAt pc 0x1021).run = .running ∧ (stateAt pc 0x1021).busy = none ∧
      (stateAt pc 0x1021).pc ≠ 0xFE00 ∧ (stateAt pc 0x1021).pc ≠ 0xFE02 ∧
      decode ((stateAt pc 0x1021).mem.read (stateAt pc 0x1021).pc) = .addImm .r0 .r0 1) ∧
    ({ State.reset with run := .halted } : State).run ≠ .running ∧
    ({ State.reset with run := .faulted ⟨.reservedInstruction, 0x3000, 0x8000⟩ } : State).run ≠
      .running :=
  ⟨by simp only [List.forall_mem_cons, List.not_mem_nil, false_implies, implies_true]
      decide, by decide, by decide⟩

/-- A routine that waits, at a terminal that accepts just the prompt; a TRAP in progress; the two
stops. -/
theorem witness_StepOfAWaitingOrStoppedBlock :
    (FixedOk lax ((0b0000#4) = 0b0000#4) ∧
      ∃ k u, trapUnit 0x20 (linked lax) = (.unfinished k, u)) ∧
    (lax.term.reads = [] ∧ Accepts lax.term lax.cfg.inPrompt.length) ∧
    (∃ s : State, s.run = .running ∧ s.busy = some ⟨0xF020, .getc⟩) ∧
    (∃ s : State, s.run = .halted) ∧
    ∃ s : State, s.run = .faulted ⟨.reservedInstruction, 0x3000, 0x8000⟩ :=
  ⟨⟨.inl rfl, _, _, rfl⟩, ⟨rfl, accepts_of_none rfl⟩,
    ⟨{ State.reset with busy := some ⟨0xF020, .getc⟩ }, rfl, rfl⟩,
    ⟨{ State.reset with run := .halted }, rfl⟩,
    { State.reset with run := .faulted ⟨.reservedInstruction, 0x3000, 0x8000⟩ }, rfl⟩

/-- A flag setter that runs, one that is stopped, an instruction that sets none, and IN. -/
theorem witness_FlagsAreWrittenByTheSettersOnly :
    (flagSource (.addReg .r2 .r0 0 .r1) = some .r2 ∧ ¬ Illegal (.addReg .r2 .r0 0 .r1) checkedState ∧
      ∃ t, exec (.addReg .r2 .r0 0 .r1) checkedState = .next t) ∧
    (flagSource (.st .r0 0) = none ∧ (∀ fx, Instr.st .r0 0 ≠ .trap fx 0x23)) ∧
    Illegal (.not .r0 .r0 0) checkedState ∧
    (∃ fx t, Instr.trap 0 0x23 = .trap fx 0x23 ∧ exec (.trap 0 0x23) State.reset = .next t) :=
  ⟨⟨rfl, fun h => absurd h.2 (by decide), _, rfl⟩, ⟨rfl, fun _ h => by cases h⟩, ⟨rfl, rfl⟩,
    _, _, rfl, rfl⟩

theorem witness_OnlyBranchReadsTheFlags :
    (∀ n z p off9, Instr.ldi .r0 0 ≠ .br n z p off9) ∧
    (∃ t, exec (.ldi .r0 0) State.reset = .next t) ∧
    (∀ n z p off9, Instr.trap 0 0x23 ≠ .br n z p off9) ∧
    ∃ t, exec (.trap 0 0x23) State.reset = .next t :=
  ⟨fun _ _ _ _ h => (by cases h), ⟨_, rfl⟩, fun _ _ _ _ h => (by cases h), ⟨_, rfl⟩⟩

theorem witness_RegistersChangeOnlyAsTheTableSays :
    ¬ writes (.ld .r1 0) .r0 ∧ ¬ writes (.trap 0 0x21) .r0 ∧ ¬ writes (.br true true true 0) .r7 ∧
    ∃ t, exec (.ld .r1 0) State.reset = .next t :=
  ⟨by simp [writes], by simp [writes], by simp [writes], _, rfl⟩

theorem witness_PcAfterEachInstruction :
    ¬ Illegal (.jsrr 0 .r7 0) checkedState ∧ Illegal (.jsrr 1 .r7 0) checkedState ∧
    (∃ t, exec (.jsrr 0 .r7 0) checkedState = .next t) ∧
    ∃ t, exec (.jsrr 1 .r7 0) checkedState = .next t :=
  ⟨fun h => absurd h.2 (by decide), ⟨rfl, rfl⟩, ⟨_, rfl⟩, _, rfl⟩

/-- A cell beside the one a store writes. -/
theorem witness_OnlyStoresChangeOrdinaryCells :
    (∃ t, exec (.st .r0 2) State.reset = .next t) ∧
    (0x3003 : Word) ≠ 0xFE00 ∧ (0x3003 : Word) ≠ 0xFE02 ∧
    (∀ sr off9, Instr.st .r0 2 = .st sr off9 → (0x3003 : Word) ≠ pcRel9 off9 State.reset) ∧
    (∀ sr off9, Instr.st .r0 2 = .sti sr off9 →
      (0x3003 : Word) ≠ (memRead (pcRel9 off9 State.reset) State.reset).1) ∧
    (∀ sr base off6, Instr.st .r0 2 = .str sr base off6 →
      (0x3003 : Word) ≠ baseOff6 base off6 State.reset) := by
  refine ⟨⟨_, rfl⟩, by decide, by decide, ?_, ?_, ?_⟩
  · rintro sr off9 ⟨⟩; decide
  · rintro sr off9 ⟨⟩
  · rintro sr base off6 ⟨⟩

/-- Each of the three stores: to the keyboard data cell for the first clause, to its own cell for
the second. -/
theorem witness_StoresAreSeenByTheNextFetch :
    (storeSource (.st .r1 0x1FF) = some .r1 ∧ storeSource (.sti .r1 0) = some .r1 ∧
      storeSource (.str .r7 .r7 0x3F) = some .r7) ∧
    (State.reset.mem.wf ∧ (stateAt 0x3001 0xFE02).mem.wf ∧ (0xFE02 : Word) ≠ 0xFE00 ∧
      storeAddress (.st .r1 0) { State.reset with pc := 0xFE02 } = some 0xFE02 ∧
      storeAddress (.sti .r1 0) (stateAt 0x3001 0xFE02) = some 0xFE02 ∧
      storeAddress (.str .r1 .r2 0) { State.reset with x := regs .r2 0xFE02 } = some 0xFE02) ∧
    (let st := stateAt 0x3000 0x33FF
     let sti := stateAt 0x3000 0xB200 (cells := [(0x3001, 0x3000)])
     let str := stateAt 0x3000 0x7FFF (regs .r7 0x3001)
     (st.mem.wf ∧ st.run = .running ∧ st.busy = none ∧ st.pc = 0x3000 ∧
       decode (st.mem.read 0x3000) = .st .r1 0x1FF ∧
       storeAddress (.st .r1 0x1FF) { st with pc := 0x3001 } = some 0x3000) ∧
     (sti.mem.wf ∧ sti.run = .running ∧ sti.busy = none ∧ sti.pc = 0x3000 ∧
       decode (sti.mem.read 0x3000) = .sti .r1 0 ∧
       storeAddress (.sti .r1 0) { sti with pc := 0x3001 } = some 0x3000) ∧
     (str.mem.wf ∧ str.run = .running ∧ str.busy = none ∧ str.pc = 0x3000 ∧
       decode (str.mem.read 0x3000) = .str .r7 .r7 0x3F ∧
       storeAddress (.str .r7 .r7 0x3F) { str with pc := 0x3001 } = some 0x3000)) := by
  refine ⟨by decide, ⟨memory_reset_wf, by decide, by decide, by decide, by decide, by decide⟩,
    ?_, ?_, ?_⟩ <;> decide

/-- A TRAP in progress, of each of the four kinds. -/
theorem witness_StepOfABusyTrapKeepsTheFrame :
    ∀ k ∈ [TrapWork.getc, .inEcho, .puts 0xFE00, .putsp 0xFE02],
      ({ State.reset with busy := some ⟨0xF020, k⟩ } : State).run = .running ∧
      ({ State.reset with busy := some ⟨0xF020, k⟩ } : State).busy = some ⟨0xF020, k⟩ :=
  fun _ _ => ⟨rfl, rfl⟩

/-- The invariant at reset, at a waiting TRAP and at a fault, the first two with a next step. -/
theorem witness_EveryStepKeepsTheInvariant :
    (Inv State.reset ∧ ∃ t, step State.reset = .next t) ∧
    (let s : State := { State.reset with
      pc := 0x3001, x := regs .r7 0x3001, busy := some ⟨0xF020, .getc⟩ }
     Inv s ∧ ∃ t, step s = .next t) ∧
    Inv { State.reset with
      pc := 0x3001, run := .faulted ⟨.reservedInstruction, 0x3000, 0x8000⟩ } := by
  refine ⟨⟨⟨memory_reset_wf, ?_, ?_, Nat.le_refl _⟩, _, rfl⟩,
    ⟨⟨memory_reset_wf, ?_, ?_, Nat.le_refl _⟩, _, rfl⟩, memory_reset_wf, ?_, ?_, Nat.le_refl _⟩
  · intro b hb; cases hb
  · intro r hr; cases hr
  · intro b hb; cases hb; exact ⟨rfl, rfl, rfl, rfl⟩
  · intro r hr; cases hr
  · intro b hb; cases hb
  · intro r hr; cases hr; exact ⟨by decide, .inl rfl⟩

theorem witness_RunStartMeetsTheInvariant :
    Memory.wf (Memory.write [] 0x3000 0xF025) ∧
    Terminal.initial.flushed ≤ Terminal.initial.out.length := by
  decide

theorem witness_StepsKeepParametersAndOutput : ∃ t, step State.reset = .next t := ⟨_, rfl⟩

theorem witness_RunStartsAsTheRuleSays :
    ∃ m, loadImages [some [0x30, 0x00, 0x12, 0x34]] [] = .ok m := ⟨_, rfl⟩

/-- A payload that ends exactly at 0xFFFF. -/
theorem witness_LoadingPutsThePayloadAtItsOrigin :
    Memory.wf [] ∧ (0xFFFE : Word).toNat + ([1, 2] : List Word).length ≤ 0x10000 ∧
    ([1, 2] : List Word)[1]? = some 2 ∧
    ((0xFFFD : Word).toNat < (0xFFFE : Word).toNat) ∧
    ((0x3000 : Word).toNat + ([1, 2] : List Word).length ≤ (0x3002 : Word).toNat) := by
  decide

/-- No byte, one byte, an odd number; a payload one word too long, and one that just fits. -/
theorem witness_ImagesAreBigEndianWordsOrErrors :
    (([] : List Byte).length < 2 ∧ ([0x30] : List Byte).length < 2 ∧
      ([0x30, 0x00, 0x12] : List Byte).length % 2 = 1) ∧
    (([0xFF, 0xFF, 0, 1, 0, 2] : List Byte).length % 2 = 0 ∧
      (0xFF : Byte).toNat * 256 + (0xFF : Byte).toNat + ([0, 1, 0, 2] : List Byte).length / 2 >
        0x10000) ∧
    ((0xFF : Byte).toNat * 256 + (0xFF : Byte).toNat + ([0, 1] : List Byte).length / 2 ≤ 0x10000) ∧
    (∃ e, parseImage none = .error e) ∧ (∃ im, parseImage (some [0x30, 0x00]) = .ok im) ∧
    ∃ e, loadImages [none] [] = .error e :=
  ⟨by decide, by decide, by decide, ⟨_, rfl⟩, ⟨_, rfl⟩, _, rfl⟩

/-- BRnzp #-1 branches to itself. -/
theorem selfLoop_never_ends : NeverEnds (stateAt 0x3000 0x0FFF) := by
  have h : core.step (stateAt 0x3000 0x0FFF) = .next (stateAt 0x3000 0x0FFF) := by rfl
  intro n
  refine ⟨stateAt 0x3000 0x0FFF, ?_, rfl⟩
  induction n with
  | zero => rfl
  | succ n ih => simp only [Reaches, Host.Core.run, h]; exact ih

/-- Each of the three ends of a run. -/
theorem witness_RunEndsInAtMostOneWay :
    (∃ t, EndsHalted 1 (stateAt 0x3000 0xF025) t) ∧
    (∃ t r, EndsFaulted 1 (stateAt 0x3000 0xD000) t r) ∧
    NeverEnds (stateAt 0x3000 0x0FFF) :=
  ⟨⟨_, rfl, rfl⟩, ⟨_, _, rfl, rfl⟩, selfLoop_never_ends⟩

end Sys2Proof.Tests
end

section
/-! SUPPORT. Sign extension and zero extension by the formula of 00_scope R11. -/

namespace Sys2Proof.Machine

/-- Bit i of the mask `0xFFFF << N` of 00_scope R11 is set exactly from bit N up. -/
theorem getElem_highMask (n : Nat) {i : Nat} (hi : i < 16) :
    (0xFFFF#16 <<< n)[i] = decide (n ≤ i) := by
  have hones : 0xFFFF#16 = BitVec.allOnes 16 := rfl
  rw [hones, BitVec.getElem_shiftLeft, BitVec.getElem_allOnes, Bool.and_true, ← decide_not]
  exact decide_eq_decide.mpr Nat.not_lt

/-- The formula of 00_scope R11 at every width: a set sign bit fills the bits above the field,
a clear one leaves them 0. -/
theorem sext_eq_ite_or_highMask {n : Nat} (v : BitVec (n + 1)) :
    sext v =
      if v.getLsbD n then (v.setWidth 16 ||| 0xFFFF#16 <<< (n + 1)) else v.setWidth 16 := by
  have hmsb : v.msb = v.getLsbD n := BitVec.msb_eq_getLsbD_last v
  cases hsign : v.getLsbD n with
  | false => simpa [sext] using BitVec.signExtend_eq_setWidth_of_msb_false (hmsb.trans hsign)
  | true =>
    ext i hi
    by_cases hfield : i < n + 1
    · have hmask : ¬ n + 1 ≤ i := by omega
      simp [sext, BitVec.getElem_signExtend, hfield, getElem_highMask (n + 1) hi, hmask]
    · have hmask : n + 1 ≤ i := by omega
      simp [sext, BitVec.getElem_signExtend, hfield, hmsb, hsign,
        getElem_highMask (n + 1) hi, hmask]

/-- Settles O6: the formula of R11 holds at every width, so at the four that the encoding uses;
`zext_16` of a byte is the byte under a zero byte. -/
theorem extensionsFollowTheFormula : Obligations.ExtensionsFollowTheFormula :=
  ⟨sext_eq_ite_or_highMask, sext_eq_ite_or_highMask, sext_eq_ite_or_highMask,
    sext_eq_ite_or_highMask, zext_eq_append⟩

end Sys2Proof.Machine
end

section
/-! SUPPORT. The flag of a value (10_state R18). -/

namespace Sys2Proof.Machine

/-- The three cases of R18 in its order: bit 15 is looked at first, then the whole value. -/
theorem condOf_cases (v : Word) :
    (condOf v = .N ∧ v.getLsbD 15 = true) ∨
    (condOf v = .Z ∧ v.getLsbD 15 = false ∧ v = 0x0000) ∨
    (condOf v = .P ∧ v.getLsbD 15 = false ∧ v ≠ 0x0000) := by
  unfold condOf
  split
  case isTrue hsign => exact .inl ⟨rfl, hsign⟩
  case isFalse hsign =>
    have hclear : v.getLsbD 15 = false := Bool.eq_false_iff.mpr hsign
    split
    case isTrue hzero => exact .inr (.inl ⟨rfl, hclear, hzero⟩)
    case isFalse hzero => exact .inr (.inr ⟨rfl, hclear, hzero⟩)

/-- Each flag names its case of R18, since the cases exclude each other. -/
theorem condOf_iffs (v : Word) :
    (condOf v = .N ↔ v.getLsbD 15 = true) ∧
    (condOf v = .Z ↔ v.getLsbD 15 = false ∧ v = 0x0000) ∧
    (condOf v = .P ↔ v.getLsbD 15 = false ∧ v ≠ 0x0000) := by
  obtain ⟨hcond, hsign⟩ | ⟨hcond, hsign, hzero⟩ | ⟨hcond, hsign, hzero⟩ := condOf_cases v
  · rw [hcond, hsign]; simp
  · rw [hcond, hsign]; simp [hzero]
  · rw [hcond, hsign]; simpa using hzero

/-- The frame of `setcc`: the whole next state is the old one with the value's flag in `cond`. -/
theorem setcc_eq (v : Word) (s : State) : setcc v s = { s with cond := condOf v } := rfl

/-- Settles O9: the flag is `condOf v`, which meets R18's three cases. -/
theorem setccSetsTheFlagOfTheValue : Obligations.SetccSetsTheFlagOfTheValue := fun v s =>
  ⟨condOf v, setcc_eq v s, condOf_iffs v⟩

end Sys2Proof.Machine
end

section
/-! SUPPORT. One cell of memory: what a write sets and what a read does besides giving the cell
(20_memory R36, R37). -/

namespace Sys2Proof.Machine

variable {a b : Word}

/-- The frame of a memory write: every field but the memory is the old one. -/
theorem memWrite_eq (a v : Word) (s : State) :
    memWrite a v s = { s with mem := (memWrite a v s).mem } := rfl

/-- The cell just written reads back, at a keyboard address as at any other. -/
theorem read_memWrite_same {s : State} (hm : s.mem.wf) (a v : Word) :
    (memWrite a v s).mem.read a = v := Memory.read_write_same hm

/-- A write leaves every other cell alone. -/
theorem read_memWrite_other (s : State) (v : Word) (h : b ≠ a) :
    (memWrite a v s).mem.read b = s.mem.read b := Memory.read_write_other h

/-- A write keeps the canonical form. -/
theorem memWrite_wf {s : State} (hm : s.mem.wf) (a v : Word) : (memWrite a v s).mem.wf :=
  Memory.write_wf hm

/-- Only the poll comes before the value is taken: at any address but 0xFE00 a read gives the cell
as it stands. -/
theorem memRead_fst (s : State) (h : a ≠ kbsr) : (memRead a s).1 = s.mem.read a := by
  simp only [memRead, if_neg h]

/-- Settles O10: a write is an update of the memory list alone. -/
theorem memWriteSetsOneCellOnly : Obligations.MemWriteSetsOneCellOnly := fun a v s =>
  ⟨memWrite_eq a v s, fun _ => read_memWrite_other s v, fun hm => read_memWrite_same hm a v⟩

/-- Settles O11: the three cases of R37, ordinary, status and data. -/
theorem memReadHasTheKeyboardSideEffects : Obligations.MemReadHasTheKeyboardSideEffects := fun s =>
  ⟨fun _ => memRead_ordinary s, memRead_kbsr s, memRead_kbdr s⟩

end Sys2Proof.Machine
end

section
/-! SUPPORT. The keyboard's side effects as memory writes: what the poll and the consumption leave
in the two keyboard cells (20_memory R38 to R40). -/

namespace Sys2Proof.Machine

variable {s : State} {c : Byte}

theorem kbdr_ne_kbsr : kbdr ≠ kbsr := by decide

@[simp] theorem pollChar_mem (s : State) : (pollChar s).2.mem = s.mem := by
  unfold pollChar; split <;> rfl

/-- A scripted answer is the poll's answer and is consumed (R38). -/
theorem pollChar_scripted {c : Option Byte} {rest : List (Option Byte)}
    (h : s.term.polls = c :: rest) :
    pollChar s = (c, { s with term := { s.term with polls := rest } }) := by
  simp only [pollChar, h, State.setTerm]

/-- A poll that finds a key writes the status, then stages the key. -/
theorem kbsrPoll_key (h : (pollChar s).1 = some c) :
    kbsrPoll s = memWrite kbdr (zext c) (memWrite kbsr 0x8000 (pollChar s).2) := by
  simp only [kbsrPoll, h]; rfl

/-- An empty poll writes a zero status under KBSR_EMPTY_POLL = clear. -/
theorem kbsrPoll_clear (h : (pollChar s).1 = none) (hcfg : s.cfg.kbsrEmptyPoll = .clear) :
    kbsrPoll s = memWrite kbsr 0x0000 (pollChar s).2 := by
  simp only [kbsrPoll, h, (onlyTerminal_pollChar s).cfg, hcfg]; rfl

/-- An empty poll writes nothing under KBSR_EMPTY_POLL = retain. -/
theorem kbsrPoll_retain (h : (pollChar s).1 = none) (hcfg : s.cfg.kbsrEmptyPoll = .retain) :
    kbsrPoll s = (pollChar s).2 := by
  simp only [kbsrPoll, h, (onlyTerminal_pollChar s).cfg, hcfg]

/-- The consumption is one write, of the old status without bit 15. -/
theorem kbdrConsume_eq (s : State) :
    kbdrConsume s = memWrite kbsr (s.mem.read kbsr &&& 0x7FFF) s := rfl

/-- What a poll that finds a key leaves in memory: the second write, to 0xFE02, does not disturb
the status the first one set. -/
theorem read_kbsrPoll_key (hm : s.mem.wf) (h : (pollChar s).1 = some c) :
    (kbsrPoll s).mem.read kbsr = 0x8000 ∧ (kbsrPoll s).mem.read kbdr = zext c ∧
    ∀ a, a ≠ kbsr → a ≠ kbdr → (kbsrPoll s).mem.read a = s.mem.read a := by
  have hpoll : (pollChar s).2.mem.wf := (pollChar_mem s).symm ▸ hm
  rw [kbsrPoll_key h]
  refine ⟨?_, read_memWrite_same (memWrite_wf hpoll _ _) _ _, fun a hstatus hdata => ?_⟩
  · rw [read_memWrite_other _ _ kbdr_ne_kbsr.symm, read_memWrite_same hpoll]
  · rw [read_memWrite_other _ _ hdata, read_memWrite_other _ _ hstatus, pollChar_mem]

/-- What an empty poll leaves in memory under KBSR_EMPTY_POLL = clear. -/
theorem read_kbsrPoll_clear (hm : s.mem.wf) (h : (pollChar s).1 = none)
    (hcfg : s.cfg.kbsrEmptyPoll = .clear) :
    (kbsrPoll s).mem.read kbsr = 0x0000 ∧
    ∀ a, a ≠ kbsr → (kbsrPoll s).mem.read a = s.mem.read a := by
  have hpoll : (pollChar s).2.mem.wf := (pollChar_mem s).symm ▸ hm
  rw [kbsrPoll_clear h hcfg]
  refine ⟨read_memWrite_same hpoll _ _, fun a ha => ?_⟩
  rw [read_memWrite_other _ _ ha, pollChar_mem]

/-- Settles O12: the poll's answer decides between two writes, one write and none. -/
theorem pollSetsStatusAndStagesTheKey : Obligations.PollSetsStatusAndStagesTheKey := by
  intro s hm
  refine ⟨fun _ _ => pollChar_scripted, fun c hkey => ?_, fun hnone hcfg => ?_, kbsrPoll_retain⟩
  · obtain ⟨hstatus, hdata, hother⟩ := read_kbsrPoll_key hm hkey
    exact ⟨by rw [kbsrPoll_key hkey]; rfl, hstatus, hdata.trans (zext_eq_append c), hother⟩
  · exact ⟨by rw [kbsrPoll_clear hnone hcfg]; rfl, read_kbsrPoll_clear hm hnone hcfg⟩

/-- Settles O13: a read of 0xFE02 is the cell and one write to 0xFE00, so O10's facts about a
write give the frame. -/
theorem keyboardDataReadClearsAvailability : Obligations.KeyboardDataReadClearsAvailability := by
  intro s hm
  have hread : memRead 0xFE02 s = (s.mem.read kbdr, kbdrConsume s) := memRead_kbdr s
  rw [hread, kbdrConsume_eq]
  exact ⟨rfl, memWrite_eq _ _ s, read_memWrite_same hm _ _, fun _ => read_memWrite_other s _⟩

end Sys2Proof.Machine
end

section
/-! SUPPORT. The stores as one write, and the fetch that sees it (20_memory R44; 42_load_store R77
to R79). -/

namespace Sys2Proof.Machine

open Sys2Proof.Spec

variable {i : Instr} {sr : Reg} {a : Word} {s : State}

/-- Each store is one write of SR to its address, on the state that its reads of memory leave. -/
theorem exec_store (hsource : storeSource i = some sr) (haddr : storeAddress i s = some a) :
    ∃ u, OnlyTerminal s u ∧ exec i s = .next (memWrite a (s.reg sr) u) := by
  cases i with
  | st r off9 =>
    cases hsource; cases haddr
    exact ⟨s, .rfl, rfl⟩
  | sti r off9 =>
    cases hsource; cases haddr
    refine ⟨(memRead (pcRel9 off9 s) s).2, onlyTerminal_memRead _ s, ?_⟩
    rw [← memRead_reg (pcRel9 off9 s) s sr]
    exact execSti_eq sr off9 s
  | str r base off6 =>
    cases hsource; cases haddr
    exact ⟨s, .rfl, rfl⟩
  | _ => cases hsource

/-- After a store its cell reads SR, and the pc stands. -/
theorem exec_store_reads_back (hm : s.mem.wf) (hsource : storeSource i = some sr)
    (haddr : storeAddress i s = some a) :
    ∃ t, exec i s = .next t ∧ t.pc = s.pc ∧ t.mem.read a = s.reg sr := by
  obtain ⟨u, hu, hexec⟩ := exec_store hsource haddr
  exact ⟨_, hexec, hu.pc, read_memWrite_same (hu.wf hm) a _⟩

/-- The fetch of any cell but 0xFE00 gives what the cell holds. -/
theorem fetch_fst (h : s.pc ≠ kbsr) : (fetch s).1 = s.mem.read s.pc := memRead_fst s h

/-- The fetch of an ordinary cell has no effect but on the pc. -/
theorem fetch_ordinary (hstatus : s.pc ≠ kbsr) (hdata : s.pc ≠ kbdr) :
    fetch s = (s.mem.read s.pc, s.setPc (s.pc + 1)) := by
  simp only [fetch, memRead_ordinary s hstatus hdata]

/-- A running block with no TRAP in progress executes what it fetches (30_encoding R45). -/
theorem step_fetched (hrun : s.run = .running) (hbusy : s.busy = none) :
    step s = exec (decode (fetch s).1) (fetch s).2 := by
  simp only [step, hrun, hbusy]

/-- Settles O52: a store leaves SR in its cell, the fetch gives the cell, and the instruction of a
step is decoded before it writes. -/
theorem storesAreSeenByTheNextFetch : Obligations.StoresAreSeenByTheNextFetch := by
  refine fun i sr a hsource => ⟨fun s hm haddr ha => ?_, ?_⟩
  · obtain ⟨t, hexec, -, hcell⟩ := exec_store_reads_back hm hsource haddr
    exact ⟨t, hexec, (fetch_fst (s := { t with pc := a }) ha).trans hcell⟩
  · rintro s hm hrun hbusy rfl hstatus hdata hdecode haddr
    obtain ⟨t, hexec, hpc, hcell⟩ :=
      exec_store_reads_back (s := s.setPc (s.pc + 1)) hm hsource haddr
    have hstep : step s = .next t := by
      rw [step_fetched hrun hbusy, fetch_ordinary hstatus hdata, hdecode, hexec]
    exact ⟨t, hstep, hpc, hcell, (fetch_fst (s := { t with pc := s.pc }) hstatus).trans hcell⟩

end Sys2Proof.Machine
end

section
/-! SUPPORT. Fields of an instruction word: reading a field of a word put together from placed
fields, and putting a word's own fields together again (30_encoding R49). -/

namespace Sys2Proof

variable {n m j k : Nat} {w : Word}

/-- A placed field reads back at its own position. -/
theorem extractLsb'_place_same (v : BitVec n) (h : k + n ≤ 16) :
    (place k v).extractLsb' k n = v := by
  ext i hi
  simp [BitVec.getLsbD_eq_getElem, hi, show k + i < 16 by omega]

/-- A placed field leaves every field beside it zero. -/
theorem extractLsb'_place_disjoint (v : BitVec n) (h : j + m ≤ k ∨ k + n ≤ j) :
    (place k v).extractLsb' j m = 0#m := by
  ext i hi
  rcases h with hbelow | habove
  · simp [show j + i < k by omega]
  · simp [BitVec.getLsbD_of_ge v (j + i - k) (by omega)]

/-- A field of `w` placed where it was read holds exactly the bits of `w` in its range. -/
theorem getLsbD_place_extractLsb' {i : Nat} (hi : i < 16) :
    (place k (w.extractLsb' k n)).getLsbD i = (decide (k ≤ i ∧ i < k + n) && w.getLsbD i) := by
  by_cases hk : i < k
  · simp [hk, show ¬ k ≤ i by omega]
  · obtain ⟨d, rfl⟩ := Nat.exists_eq_add_of_le (Nat.le_of_not_lt hk)
    simp [hi]

/-- Two adjacent fields of a word, each in its place, are one field in its place. -/
theorem place_or_place (h : k = j + n) :
    place k (w.extractLsb' k m) ||| place j (w.extractLsb' j n) =
      place j (w.extractLsb' j (n + m)) := by
  apply BitVec.eq_of_getLsbD_eq
  intro i hi
  have hrange : (k ≤ i ∧ i < k + m) ∨ (j ≤ i ∧ i < j + n) ↔ j ≤ i ∧ i < j + (n + m) := by omega
  simp only [BitVec.getLsbD_or, getLsbD_place_extractLsb' hi, ← Bool.and_or_distrib_right,
    ← Bool.decide_or, hrange]

/-- The field of all sixteen bits is the word. -/
theorem place_extractLsb'_all (h : n = 16) : place 0 (w.extractLsb' 0 n) = w := by
  subst h; simp [place]

theorem ofBool_getLsbD (w : Word) (k : Nat) : BitVec.ofBool (w.getLsbD k) = w.extractLsb' k 1 := by
  ext i hi
  obtain rfl : i = 0 := by omega
  simp

theorem extractLsb'_one_of_set (h : w.getLsbD k = true) : w.extractLsb' k 1 = 1#1 := by
  rw [← ofBool_getLsbD, h]; rfl

/-- A field may start one bit lower, at a bit that is clear. -/
theorem place_extractLsb'_of_clear (h : w.getLsbD j = false) (hk : k = j + 1) :
    place k (w.extractLsb' k n) = place j (w.extractLsb' j (1 + n)) := by
  have hzero : place j (w.extractLsb' j 1) = 0#16 := by
    rw [← ofBool_getLsbD, h]; simp [place]
  rw [← place_or_place hk, hzero, BitVec.or_zero]

/-- The opcode field from the four bits the decoder looks at (30_encoding R47). -/
theorem extractLsb'_opcode {b15 b14 b13 b12 : Bool} (h15 : w.getLsbD 15 = b15)
    (h14 : w.getLsbD 14 = b14) (h13 : w.getLsbD 13 = b13) (h12 : w.getLsbD 12 = b12) :
    w.extractLsb' 12 4 =
      BitVec.ofBool b15 ++ BitVec.ofBool b14 ++ BitVec.ofBool b13 ++ BitVec.ofBool b12 := by
  subst h15 h14 h13 h12
  apply BitVec.eq_of_getLsbD_eq
  intro i hi
  rw [BitVec.getLsbD_append, BitVec.getLsbD_append, BitVec.getLsbD_append]
  interval_cases i <;> simp

end Sys2Proof
end

section
/-! SUPPORT. The two directions between instructions and words (30_encoding R47, R49). -/

namespace Sys2Proof

/-- The fields of each format lie side by side, so the decoder reads every one of them back. -/
theorem decode_encode (i : Instr) : decode (encode i) = i := by
  cases i <;>
    simp (disch := omega) [decode, encode, regHi, regMid, regLo, imm5Of, off6Of, off9Of, off11Of,
      BitVec.extractLsb'_or, extractLsb'_place_same, extractLsb'_place_disjoint]

/-- Settles O1: no two fields of a format overlap, so none is lost. -/
theorem decodeOfEncodeIsTheInstruction : Obligations.DecodeOfEncodeIsTheInstruction :=
  decode_encode

/-- In each row of the decoder the opcode, the mode bit and the fields fill the word from bit 15
down to bit 0, so the encoder puts the same word together again. -/
theorem encode_decode (w : Word) : encode (decode w) = w := by
  unfold decode
  split
  all_goals
    rename_i h15 h14 h13 h12
    have hop := extractLsb'_opcode h15 h14 h13 h12
    simp only [BitVec.ofBool_false, BitVec.ofBool_true, BitVec.reduceAppend] at hop
  case h_2 | h_6 => -- ADD and AND: bit 5 is the mode bit
    cases hmode : w.getLsbD 5 with
    | false =>
      simp (disch := omega) only [Bool.false_eq_true, if_false, encode, ← hop, regHi, regMid,
        regLo, Reg.bits_ofBits, place_or_place, place_extractLsb'_of_clear hmode,
        place_extractLsb'_all]
    | true =>
      simp (disch := omega) only [if_true, encode, ← hop, ← extractLsb'_one_of_set hmode, regHi,
        regMid, imm5Of, Reg.bits_ofBits, place_or_place, place_extractLsb'_all]
  case h_5 => -- JSR and JSRR: bit 11 is the mode bit
    cases hmode : w.getLsbD 11 with
    | false =>
      simp (disch := omega) only [Bool.false_eq_true, if_false, encode, ← hop, regMid, off6Of,
        Reg.bits_ofBits, place_or_place, place_extractLsb'_of_clear hmode, place_extractLsb'_all]
    | true =>
      simp (disch := omega) only [if_true, encode, ← hop, ← extractLsb'_one_of_set hmode,
        off11Of, place_or_place, place_extractLsb'_all]
  all_goals
    simp (disch := omega) only [encode, ← hop, regHi, regMid, off9Of, off6Of, ofBool_getLsbD,
      Reg.bits_ofBits, place_or_place, place_extractLsb'_all]

end Sys2Proof
end

section
/-! SUPPORT. Register fields as numbers (30_encoding R48). -/

namespace Sys2Proof

open Sys2Proof.Spec

theorem regIndex_eq_toNat_bits (r : Reg) : regIndex r = r.bits.toNat := by
  cases r <;> rfl

/-- The register of a 3-bit field is the word shifted and masked with 7. -/
theorem regIndex_ofBits_extractLsb' (w : Word) (k : Nat) :
    regIndex (Reg.ofBits (w.extractLsb' k 3)) = w.toNat >>> k &&& 7 := by
  rw [regIndex_eq_toNat_bits, Reg.bits_ofBits, BitVec.extractLsb'_toNat]
  exact (Nat.and_two_pow_sub_one_eq_mod _ 3).symm

/-- Settles O5: one fact about a 3-bit field, at its three positions. -/
theorem registerFieldsAreShiftAndMask : Obligations.RegisterFieldsAreShiftAndMask := fun w =>
  ⟨regIndex_ofBits_extractLsb' w 9, regIndex_ofBits_extractLsb' w 6,
    regIndex_ofBits_extractLsb' w 0⟩

end Sys2Proof
end

section
/-! SUPPORT. The rows of the opcode table (30_encoding R47). -/

namespace Sys2Proof

open Sys2Proof.Machine Sys2Proof.Spec Sys2Proof.Laws

/-- Every instruction's word lies in its row, and meets the strict test exactly when its fixed bits
are right. -/
theorem rowWord (i : Instr) : RowWord.Statement i := by
  cases i with
  | addReg => exact RowWord.addReg ..
  | addImm => exact RowWord.addImm ..
  | andReg => exact RowWord.andReg ..
  | andImm => exact RowWord.andImm ..
  | not => exact RowWord.not ..
  | br => exact RowWord.br ..
  | jmp => exact RowWord.jmp ..
  | jsr => exact RowWord.jsr ..
  | jsrr => exact RowWord.jsrr ..
  | ld => exact RowWord.ld ..
  | ldi => exact RowWord.ldi ..
  | ldr => exact RowWord.ldr ..
  | lea => exact RowWord.lea ..
  | st => exact RowWord.st ..
  | sti => exact RowWord.sti ..
  | str => exact RowWord.str ..
  | trap => exact RowWord.trap ..
  | rti => exact RowWord.rti ..
  | reserved => exact RowWord.reserved ..

/-- The row of an instruction, as its position in the table gives it and as `rowTest` does. -/
theorem rows_rowOf (i : Instr) :
    rows[rowOf i]? = some ⟨(rowTest i).mask, (rowTest i).value, (rowTest i).strictMask,
      (rowTest i).strictValue⟩ := by
  cases i <;> rfl

/-- Every row tests all four opcode bits, so a word that passes has the row's opcode value. -/
theorem opcodeOf_eq_of_test {w : Word} {r : Row} (hr : r ∈ rows) (h : w &&& r.mask = r.value) :
    opcodeOf w = opcodeOf r.value := by
  have hmask : ∀ r ∈ rows, opcodeOf r.mask = BitVec.allOnes 4 := by decide
  calc opcodeOf w = opcodeOf w &&& opcodeOf r.mask := by rw [hmask r hr, BitVec.and_allOnes]
    _ = opcodeOf (w &&& r.mask) := BitVec.extractLsb'_and.symm
    _ = opcodeOf r.value := by rw [h]

/-- R47's map gives the opcode value of a row the row. -/
theorem mem_handlerRows : ∀ k : Fin rows.length,
    ∃ ixs ∈ handlerRows[(opcodeOf rows[k].value).toNat]?, k.val ∈ ixs := by
  decide

/-- R47's map gives an instruction's opcode value its row. -/
theorem rowOf_mem_handlerRows (i : Instr) :
    ∃ ixs, handlerRows[(opcodeOf (encode i)).toNat]? = some ixs ∧ rowOf i ∈ ixs := by
  obtain ⟨hlt, hrow⟩ := List.getElem?_eq_some_iff.mp (rows_rowOf i)
  have hop : opcodeOf (encode i) = opcodeOf rows[rowOf i].value :=
    opcodeOf_eq_of_test (List.getElem_mem hlt) (by rw [hrow]; exact (rowWord i).1)
  rw [hop]
  exact mem_handlerRows ⟨rowOf i, hlt⟩

/-- Two different rows ask for different bits under their common mask. -/
theorem rows_disagree : ∀ j k : Fin rows.length,
    rows[j].value &&& rows[k].mask = rows[k].value &&& rows[j].mask → j = k := by
  decide

/-- No word passes the tests of two rows. -/
theorem row_unique {w : Word} {j k : Nat} {q r : Row} (hj : rows[j]? = some q)
    (hk : rows[k]? = some r) (hq : w &&& q.mask = q.value) (hr : w &&& r.mask = r.value) :
    j = k := by
  have hcommon : q.value &&& r.mask = r.value &&& q.mask := by
    rw [← hq, ← hr]; ac_rfl
  obtain ⟨hjlt, rfl⟩ := List.getElem?_eq_some_iff.mp hj
  obtain ⟨hklt, rfl⟩ := List.getElem?_eq_some_iff.mp hk
  exact congrArg Fin.val (rows_disagree ⟨j, hjlt⟩ ⟨k, hklt⟩ hcommon)

/-- An instruction's word passes the test of its own row and of no other. -/
theorem encode_and_mask_iff {i : Instr} {k : Nat} {r : Row} (hk : rows[k]? = some r) :
    encode i &&& r.mask = r.value ↔ k = rowOf i := by
  constructor
  · intro h
    exact row_unique hk (rows_rowOf i) h (rowWord i).1
  · rintro rfl
    obtain rfl := Option.some.inj (hk.symm.trans (rows_rowOf i))
    exact (rowWord i).1

/-- Under STRICT_FIXED_BITS a word that fails its row's strict test is stopped. -/
theorem exec_of_strict_test_failed {i : Instr} {s : State} (hs : s.cfg.strictFixedBits = true)
    (h : encode i &&& (rowTest i).strictMask ≠ (rowTest i).strictValue) :
    exec i s = .next (faulted .illegalEncoding (encode i) s) :=
  exec_illegal i s hs (Bool.eq_false_iff.mpr fun hwf => h ((rowWord i).2.mpr hwf))

/-- Settles O3: every word is the word of the instruction it decodes to, so what holds of the words
of instructions holds of every word. -/
theorem everyWordSelectsExactlyOneRow : Obligations.EveryWordSelectsExactlyOneRow := by
  intro w
  obtain ⟨i, rfl⟩ : ∃ i, w = encode i := ⟨decode w, (encode_decode w).symm⟩
  rw [decode_encode]
  exact ⟨rowOf_mem_handlerRows i, fun _ _ => encode_and_mask_iff,
    _, rows_rowOf i, fun _ => exec_of_strict_test_failed⟩

end Sys2Proof
end

section
/-! SUPPORT. The fixed bits, unchecked and checked (30_encoding R52). -/

namespace Sys2Proof.Machine

open Sys2Proof.Spec

variable {s : State}

/-- Unchecked, the instruction has its effect whatever its fixed bits. -/
theorem checkFixedBits_unchecked (hs : s.cfg.strictFixedBits = false) (i : Instr) (t : State) :
    checkFixedBits i s t = t := by
  simp [checkFixedBits, hs]

/-- Unchecked, two instructions with the same effect do the same. -/
theorem checkFixedBits_congr (hs : s.cfg.strictFixedBits = false) (i j : Instr) (t : State) :
    Host.Outcome.next (φ := Fault) (ρ := Refusal) (checkFixedBits i s t) =
      .next (checkFixedBits j s t) := by
  rw [checkFixedBits_unchecked hs, checkFixedBits_unchecked hs]

/-- A TRAP without the check: the link, the routine, the ending (43_trap R80). -/
theorem execTrap_unchecked (hs : s.cfg.strictFixedBits = false) (fx : BitVec 4) (v : Byte) :
    exec (.trap fx v) s =
      .next (finishTrap (encode (.trap fx v)) (trapUnit v (linkR7 s))) :=
  congrArg Host.Outcome.next (checkFixedBits_unchecked hs _ _)

/-- The ending of a TRAP uses its word for the fault record and the unfinished TRAP only. -/
theorem forgetWord_finishTrap (w w' : Word) (r : TrapResult × State) :
    forgetWord (finishTrap w r) = forgetWord (finishTrap w' r) := by
  obtain ⟨result, t⟩ := r
  cases result <;> rfl

/-- Settles O7: unchecked, the fixed bits are in no effect; checked, each of the six forms with
deviating bits is not well formed; RTI and the reserved opcode have one fault entry each. -/
theorem fixedBitsAreIgnoredOrChecked : Obligations.FixedBitsAreIgnoredOrChecked := by
  refine ⟨fun s hs => ?_, fun i s hs hfixed => exec_illegal i s hs ?_, fun _ _ => ⟨rfl, rfl⟩⟩
  · have same := checkFixedBits_congr hs
    exact ⟨fun _ _ _ _ => same _ _ _, fun _ _ _ _ => same _ _ _, fun _ _ _ => same _ _ _,
      fun _ _ _ => same _ _ _, fun _ _ _ => same _ _ _,
      fun fx v => ⟨_, _, execTrap_unchecked hs fx v, execTrap_unchecked hs 0b0000#4 v,
        forgetWord_finishTrap _ _ _⟩⟩
  · obtain ⟨_, _, _, _, rfl, h⟩ | ⟨_, _, _, _, rfl, h⟩ | ⟨_, _, _, rfl, h⟩ | ⟨_, _, _, rfl, h⟩ |
      ⟨_, _, _, rfl, h⟩ | ⟨_, _, rfl, h⟩ := hfixed
    all_goals
      simpa only [Instr.wellFormed, Bool.and_eq_false_iff, beq_eq_false_iff_ne] using h

end Sys2Proof.Machine
end

section
/-! SUPPORT. The instruction cycle (30_encoding R45). -/

namespace Sys2Proof.Machine

/-- Settles O44: the fetch, at any cell and at an ordinary one, and that a step begins in a running
block. -/
theorem stepRunsTheDecodedInstruction : Obligations.StepRunsTheDecodedInstruction := by
  refine fun s => ⟨step_fetched, ?_, fun hstopped ⟨t, hstep⟩ => hstopped (step_cases hstep).1⟩
  rintro i hrun hbusy hstatus hdata rfl
  rw [step_fetched hrun hbusy, fetch_ordinary hstatus hdata]
  rfl

end Sys2Proof.Machine
end

section
/-! SUPPORT. An instruction's word as a bit string (30_encoding R49). -/

namespace Sys2Proof

variable {n m : Nat}

/-- A field as wide as a word, at bit 0, is the word. -/
theorem place_at_zero (w : Word) : place 0 w = w := by
  simp [place]

theorem place_zero_field (k : Nat) : place k 0#n = 0#16 := by
  simp [place]

/-- A bit string in its place is its two parts, each in its own place. -/
theorem place_append (k : Nat) (v : BitVec n) (w : BitVec m) :
    place k (v ++ w) = place (k + m) v ||| place k w := by
  apply BitVec.eq_of_getLsbD_eq
  intro i hi
  rw [BitVec.getLsbD_or, place_getLsbD, place_getLsbD, place_getLsbD, BitVec.getLsbD_append]
  by_cases hbelow : i < k
  · simp [hbelow, show i < k + m by omega]
  · by_cases hlow : i - k < m
    · simp [hi, hbelow, hlow, show i < k + m by omega]
    · simp [hi, hbelow, hlow, show ¬ i < k + m by omega, Nat.sub_add_eq,
        BitVec.getLsbD_of_ge w (i - k) (by omega)]

end Sys2Proof
end

section
/-! SUPPORT. ADD, AND and NOT (40_operate R63 to R65). -/

namespace Sys2Proof.Machine

open Sys2Proof.Spec

variable {s : State} {i : Instr} {right : Prop}

/-- The word of ADD and AND in register mode: five placed fields, and bit 5 clear between them. -/
theorem registerMode_bitString (op : BitVec 4) (dr sr1 : BitVec 3) (fx : BitVec 2)
    (sr2 : BitVec 3) :
    place 12 op ||| place 9 dr ||| place 6 sr1 ||| place 3 fx ||| place 0 sr2 =
      op ++ dr ++ sr1 ++ 0#1 ++ fx ++ sr2 := by
  rw [← place_at_zero (op ++ dr ++ sr1 ++ 0#1 ++ fx ++ sr2)]
  simp only [place_append, place_zero_field, BitVec.or_zero]

/-- The word of ADD and AND in immediate mode: five placed fields side by side. -/
theorem immediateMode_bitString (op : BitVec 4) (dr sr1 : BitVec 3) (imm5 : BitVec 5) :
    place 12 op ||| place 9 dr ||| place 6 sr1 ||| place 5 1#1 ||| place 0 imm5 =
      op ++ dr ++ sr1 ++ 1#1 ++ imm5 := by
  rw [← place_at_zero (op ++ dr ++ sr1 ++ 1#1 ++ imm5)]
  simp only [place_append]

theorem encode_not_bitString (dr sr : Reg) (fx : BitVec 6) :
    encode (.not dr sr fx) = 0b1001#4 ++ dr.bits ++ sr.bits ++ fx := by
  rw [← place_at_zero (0b1001#4 ++ dr.bits ++ sr.bits ++ fx)]
  simp only [place_append, encode]

/-- An instruction whose fixed bits are unchecked or right has its effect (30_encoding R52). -/
theorem checkFixedBits_of_fixedOk (h : FixedOk s right) (hi : right → i.wellFormed = true)
    (t : State) : checkFixedBits i s t = t := by
  obtain hs | hright := h
  · exact checkFixedBits_unchecked hs i t
  · simp [checkFixedBits, hi hright]

/-- An operate instruction that the check lets pass answers its result, flags included. -/
theorem checked_writeResult (h : FixedOk s right) (hi : right → i.wellFormed = true) (dr : Reg)
    (v : Word) :
    Host.Outcome.next (φ := Fault) (ρ := Refusal) (checkFixedBits i s (writeResult dr v s)) =
      .next (result dr v s) :=
  congrArg Host.Outcome.next (checkFixedBits_of_fixedOk h hi _)

/-- Settles O14: both modes end in one write of the sum, which the strict check of w[4:3] alone
can stop. -/
theorem addWritesTheSum : Obligations.AddWritesTheSum := by
  refine ⟨fun _ _ _ _ => registerMode_bitString _ _ _ _ _,
    fun _ _ _ => immediateMode_bitString _ _ _ _,
    fun s dr sr1 => ⟨fun fx sr2 h => ?_, fun _ => rfl, fun fx sr2 hs hfx => ?_⟩⟩
  · exact checked_writeResult h beq_iff_eq.mpr dr _
  · exact exec_illegal _ s hs (beq_eq_false_iff_ne.mpr hfx)

/-- Settles O15: both modes end in one write of the bitwise and, which the strict check of w[4:3]
alone can stop. -/
theorem andWritesTheBitwiseAnd : Obligations.AndWritesTheBitwiseAnd := by
  refine ⟨fun _ _ _ _ => registerMode_bitString _ _ _ _ _,
    fun _ _ _ => immediateMode_bitString _ _ _ _,
    fun s dr sr1 => ⟨fun fx sr2 h => ?_, fun _ => rfl, fun fx sr2 hs hfx => ?_⟩⟩
  · exact checked_writeResult h beq_iff_eq.mpr dr _
  · exact exec_illegal _ s hs (beq_eq_false_iff_ne.mpr hfx)

/-- Settles O16: NOT ends in one write of the complement, which the strict check of w[5:0] alone
can stop. -/
theorem notWritesTheComplement : Obligations.NotWritesTheComplement := by
  refine ⟨encode_not_bitString, fun s dr sr fx => ⟨fun h => ?_, fun hs hfx => ?_⟩⟩
  · exact checked_writeResult h beq_iff_eq.mpr dr _
  · exact exec_illegal _ s hs (beq_eq_false_iff_ne.mpr hfx)

end Sys2Proof.Machine
end

section
/-! SUPPORT. BR, JMP, JSR and JSRR (41_control R67 to R70). -/

namespace Sys2Proof.Machine

open Sys2Proof.Spec

variable {n z p : Bool} {s : State} {fxLo : BitVec 6} {base : Reg}

theorem encode_br_bitString (n z p : Bool) (off9 : BitVec 9) :
    encode (.br n z p off9) =
      0b0000#4 ++ BitVec.ofBool n ++ BitVec.ofBool z ++ BitVec.ofBool p ++ off9 := by
  rw [← place_at_zero
    (0b0000#4 ++ BitVec.ofBool n ++ BitVec.ofBool z ++ BitVec.ofBool p ++ off9)]
  simp only [place_append, encode]

theorem encode_jmp_bitString (fxHi : BitVec 3) (base : Reg) (fxLo : BitVec 6) :
    encode (.jmp fxHi base fxLo) = 0b1100#4 ++ fxHi ++ base.bits ++ fxLo := by
  rw [← place_at_zero (0b1100#4 ++ fxHi ++ base.bits ++ fxLo)]
  simp only [place_append, encode]

theorem encode_jsr_bitString (off11 : BitVec 11) :
    encode (.jsr off11) = 0b0100#4 ++ 1#1 ++ off11 := by
  rw [← place_at_zero (0b0100#4 ++ 1#1 ++ off11)]
  simp only [place_append, encode]

/-- The word of JSRR has bit 11, which tells it from JSR, clear. -/
theorem encode_jsrr_bitString (fxHi : BitVec 2) (base : Reg) (fxLo : BitVec 6) :
    encode (.jsrr fxHi base fxLo) = 0b0100#4 ++ 0#1 ++ fxHi ++ base.bits ++ fxLo := by
  rw [← place_at_zero (0b0100#4 ++ 0#1 ++ fxHi ++ base.bits ++ fxLo)]
  simp only [place_append, place_zero_field, BitVec.or_zero, encode]

/-- A branch is taken exactly when one of its set bits names the flag (41_control R67). -/
theorem branchTaken_iff {c : Cond} :
    branchTaken n z p c = true ↔
      (n = true ∧ c = .N) ∨ (z = true ∧ c = .Z) ∨ (p = true ∧ c = .P) := by
  cases c <;> simp [branchTaken]

/-- With no bit set no flag is named. -/
theorem branchTaken_none (c : Cond) : branchTaken false false false c = false := by
  cases c <;> rfl

/-- With all three bits set the one flag that is set is named. -/
theorem branchTaken_all (c : Cond) : branchTaken true true true c = true := by
  cases c <;> rfl

theorem exec_br_taken (h : branchTaken n z p s.cond = true) (off9 : BitVec 9) :
    exec (.br n z p off9) s = .next { s with pc := s.pc + sext off9 } :=
  congrArg Host.Outcome.next (if_pos h)

theorem exec_br_not_taken (h : ¬ branchTaken n z p s.cond = true) (off9 : BitVec 9) :
    exec (.br n z p off9) s = .next s :=
  congrArg Host.Outcome.next (if_neg h)

/-- The strict check of JMP looks at w[11:9] and w[5:0] (30_encoding R52). -/
theorem wellFormed_jmp_iff {fxHi : BitVec 3} :
    (Instr.jmp fxHi base fxLo).wellFormed = true ↔ fxHi = 0b000#3 ∧ fxLo = 0b000000#6 := by
  simp only [Instr.wellFormed, Bool.and_eq_true, beq_iff_eq]

/-- The strict check of JSRR looks at w[10:9] and w[5:0] (30_encoding R52). -/
theorem wellFormed_jsrr_iff {fxHi : BitVec 2} :
    (Instr.jsrr fxHi base fxLo).wellFormed = true ↔ fxHi = 0b00#2 ∧ fxLo = 0b000000#6 := by
  simp only [Instr.wellFormed, Bool.and_eq_true, beq_iff_eq]

/-- Under STRICT_FIXED_BITS an instruction with two fixed fields faults when either deviates. -/
theorem exec_illegal_of_field {i : Instr} {hi lo : Prop} (hs : s.cfg.strictFixedBits = true)
    (hwf : i.wellFormed = true ↔ hi ∧ lo) (h : ¬ hi ∨ ¬ lo) :
    exec i s = .next (faulted .illegalEncoding (encode i) s) :=
  exec_illegal i s hs (Bool.eq_false_iff.mpr (hwf.not.mpr (not_and_or.mpr h)))

/-- JSRR that the check lets pass links and then reads its base in the linked state (41_control
R70). -/
theorem exec_jsrr_of_fixedOk {fxHi : BitVec 2}
    (h : FixedOk s (fxHi = 0b00#2 ∧ fxLo = 0b000000#6)) (base : Reg) :
    exec (.jsrr fxHi base fxLo) s = .next ((linkR7 s).setPc ((linkR7 s).reg base)) :=
  congrArg Host.Outcome.next (checkFixedBits_of_fixedOk h wellFormed_jsrr_iff.mpr _)

/-- The link writes no register but R7. -/
theorem linkR7_reg_other (s : State) (h : base ≠ .r7) : (linkR7 s).reg base = s.reg base :=
  State.reg_setReg_other s s.pc h

theorem linkR7_reg_r7 (s : State) : (linkR7 s).reg .r7 = s.pc :=
  State.reg_setReg_same s .r7 s.pc

/-- Settles O18: the four clauses are the two branches of R67's test, and the flag is one of
three. -/
theorem branchTestsTheFlags : Obligations.BranchTestsTheFlags := by
  refine ⟨encode_br_bitString, fun s n z p off9 => ⟨fun h => ?_, fun h => ?_, ?_, ?_⟩⟩
  · exact exec_br_taken (branchTaken_iff.mpr h) off9
  · exact exec_br_not_taken (branchTaken_iff.not.mpr h) off9
  · exact exec_br_not_taken (Bool.eq_false_iff.mp (branchTaken_none s.cond)) off9
  · exact exec_br_taken (branchTaken_all s.cond) off9

/-- Settles O19: JMP is one write of the pc, which the strict check of its two fixed fields alone
can stop. -/
theorem jumpGoesToTheBaseRegister : Obligations.JumpGoesToTheBaseRegister := by
  refine ⟨encode_jmp_bitString, by decide, fun s fxHi base fxLo => ⟨fun h => ?_, fun hs h => ?_⟩⟩
  · exact congrArg Host.Outcome.next (checkFixedBits_of_fixedOk h wellFormed_jmp_iff.mpr _)
  · exact exec_illegal_of_field hs wellFormed_jmp_iff h

/-- Settles O21: the base is read in the linked state, where R7 holds the pc and every other
register what it held before. -/
theorem jsrrLinksThenReadsTheBase : Obligations.JsrrLinksThenReadsTheBase := by
  refine ⟨encode_jsrr_bitString,
    fun s fxHi base fxLo => ⟨fun h hbase => ?_, fun h => ?_, fun hs h => ?_⟩⟩
  · rw [exec_jsrr_of_fixedOk h, linkR7_reg_other s hbase]; rfl
  · rw [exec_jsrr_of_fixedOk h, linkR7_reg_r7]; rfl
  · exact exec_illegal_of_field hs wellFormed_jsrr_iff h

/-- Settles O20: the link leaves the pc, so the target is relative to the incremented pc. -/
theorem jsrLinksAndJumpsRelative : Obligations.JsrLinksAndJumpsRelative :=
  ⟨encode_jsr_bitString, fun _ _ => rfl⟩

end Sys2Proof.Machine
end

section
/-! SUPPORT. The loads, LEA and the stores (42_load_store R73 to R79). -/

namespace Sys2Proof.Machine

open Sys2Proof.Spec

variable {a : Word}

/-- The word of LD, LDI, LEA, ST and STI: opcode, register and PCoffset9 side by side. -/
theorem pcRelative_bitString (op : BitVec 4) (r : BitVec 3) (off9 : BitVec 9) :
    place 12 op ||| place 9 r ||| place 0 off9 = op ++ r ++ off9 := by
  rw [← place_at_zero (op ++ r ++ off9)]
  simp only [place_append]

/-- The word of LDR and STR: opcode, register, BaseR and offset6 side by side. -/
theorem baseOffset_bitString (op : BitVec 4) (r base : BitVec 3) (off6 : BitVec 6) :
    place 12 op ||| place 9 r ||| place 6 base ||| place 0 off6 = op ++ r ++ base ++ off6 := by
  rw [← place_at_zero (op ++ r ++ base ++ off6)]
  simp only [place_append]

/-- A load writes its result on the state that its read leaves. -/
theorem loadInto_eq_result (dr : Reg) (a : Word) (s : State) :
    loadInto dr a s = result dr (memRead a s).1 (memRead a s).2 := rfl

/-- A load from an ordinary cell changes DR and the flags only. -/
theorem loadInto_ordinary (dr : Reg) (s : State) (hstatus : a ≠ kbsr) (hdata : a ≠ kbdr) :
    loadInto dr a s = result dr (s.mem.read a) s := by
  rw [loadInto_eq_result, memRead_ordinary s hstatus hdata]

theorem exec_ld (dr : Reg) (off9 : BitVec 9) (s : State) :
    exec (.ld dr off9) s = .next (loadInto dr (s.pc + sext off9) s) := rfl

/-- LDI is the pointer read and a load from the pointer's value. -/
theorem exec_ldi {dr : Reg} {off9 : BitVec 9} {s s1 : State} {p : Word}
    (h : memRead (s.pc + sext off9) s = (p, s1)) :
    exec (.ldi dr off9) s = .next (loadInto dr p s1) := by
  obtain ⟨rfl, rfl⟩ := Prod.ext_iff.mp h
  exact execLdi_eq dr off9 s

theorem exec_ldr (dr base : Reg) (off6 : BitVec 6) (s : State) :
    exec (.ldr dr base off6) s = .next (loadInto dr (s.reg base + sext off6) s) := rfl

/-- STI is the pointer read and a write at the pointer's value; the pointer read leaves SR. -/
theorem exec_sti {sr : Reg} {off9 : BitVec 9} {s s1 : State} {p : Word}
    (h : memRead (s.pc + sext off9) s = (p, s1)) :
    exec (.sti sr off9) s = .next (memWrite p (s.reg sr) s1) := by
  obtain ⟨rfl, rfl⟩ := Prod.ext_iff.mp h
  rw [← memRead_reg (s.pc + sext off9) s sr]
  exact execSti_eq sr off9 s

/-- An instruction whose effect is one memory write changes one cell of memory and nothing else. -/
theorem exec_of_memWrite {i : Instr} {v : Word} {s u : State}
    (h : exec i s = .next (memWrite a v u)) :
    ∃ m, exec i s = .next { u with mem := m } ∧ (u.mem.wf → m.read a = v) ∧
      ∀ b, b ≠ a → m.read b = u.mem.read b :=
  ⟨(memWrite a v u).mem, h, fun hm => read_memWrite_same hm a v, fun _ => read_memWrite_other u v⟩

/-- Settles O22: LD is one load, whose read has no side effect at an ordinary address. -/
theorem ldLoadsThePcRelativeCell : Obligations.LdLoadsThePcRelativeCell := by
  refine ⟨fun _ _ => pcRelative_bitString _ _ _, fun s dr off9 => ⟨?_, fun hstatus hdata => ?_⟩⟩
  · rw [exec_ld, loadInto_eq_result]
  · rw [exec_ld, loadInto_ordinary dr s hstatus hdata]

/-- Settles O23: the data is read in the state that the pointer read leaves, which is the state
before when the pointer's cell is ordinary. -/
theorem ldiLoadsThroughThePointer : Obligations.LdiLoadsThroughThePointer := by
  refine ⟨fun _ _ => pcRelative_bitString _ _ _, fun s dr off9 => ⟨?_, ?_⟩⟩
  · intro p s1 v s2 hpointer hdata
    rw [exec_ldi hpointer, loadInto_eq_result, hdata]
  · rintro p hstatus hdata rfl hpstatus hpdata
    rw [exec_ldi (memRead_ordinary s hstatus hdata), loadInto_ordinary dr s hpstatus hpdata]

/-- Settles O24: LDR is one load from an address computed before DR is written. -/
theorem ldrLoadsTheBaseOffsetCell : Obligations.LdrLoadsTheBaseOffsetCell := by
  refine ⟨fun _ _ _ => baseOffset_bitString _ _ _ _,
    fun s dr base off6 => ⟨?_, fun hstatus hdata => ?_⟩⟩
  · rw [exec_ldr, loadInto_eq_result]
  · rw [exec_ldr, loadInto_ordinary dr s hstatus hdata]

/-- Settles O26: ST is one memory write. -/
theorem stStoresThePcRelativeCell : Obligations.StStoresThePcRelativeCell :=
  ⟨fun _ _ => pcRelative_bitString _ _ _, fun _ _ _ => ⟨rfl, exec_of_memWrite rfl⟩⟩

/-- Settles O27: STI is one memory write on the state that the pointer read leaves, whose memory
is canonical when it was before. -/
theorem stiStoresThroughThePointer : Obligations.StiStoresThroughThePointer := by
  refine ⟨fun _ _ => pcRelative_bitString _ _ _, fun s sr off9 p s1 hread => ⟨?_, ?_⟩⟩
  · obtain ⟨m, hexec, hcell, hother⟩ := exec_of_memWrite (exec_sti (sr := sr) hread)
    have hwf : s.mem.wf → s1.mem.wf := by
      simpa only [hread] using (onlyTerminal_memRead (s.pc + sext off9) s).wf
    exact ⟨m, hexec, fun hm => hcell (hwf hm), hother⟩
  · intro hstatus hdata
    exact Prod.ext_iff.mp (hread.symm.trans (memRead_ordinary s hstatus hdata))

/-- Settles O28: STR is one memory write. -/
theorem strStoresTheBaseOffsetCell : Obligations.StrStoresTheBaseOffsetCell :=
  ⟨fun _ _ _ => baseOffset_bitString _ _ _ _, fun _ _ _ _ => ⟨rfl, exec_of_memWrite rfl⟩⟩

/-- Settles O25: LEA is one write of the address, with no read of memory. -/
theorem leaWritesTheAddressAndTheFlags : Obligations.LeaWritesTheAddressAndTheFlags :=
  ⟨fun _ _ => pcRelative_bitString _ _ _, fun _ _ _ => rfl⟩

end Sys2Proof.Machine
end

section
/-! SUPPORT. The terminal operations by whether output is accepted and what the read answers
(43_trap R82, R83, R87, R89). -/

namespace Sys2Proof.Machine

open Sys2Proof.Spec

variable {s : State} {t : Terminal} {bs : List Byte} {rest : List ReadAnswer}

/-- One more output operation is accepted unless none is left. -/
theorem accepts_one_iff : Accepts t 1 ↔ t.outLeft ≠ some 0 := by
  refine ⟨fun h h0 => absurd (h 0 h0) (by decide), fun h k hk => ?_⟩
  exact Nat.one_le_iff_ne_zero.mpr fun h0 => h (h0 ▸ hk)

/-- A terminal that accepts these bytes and `n` operations more accepts `n` after the bytes. -/
theorem accepts_wrote {n : Nat} (h : Accepts t (bs.length + n)) : Accepts (wrote t bs) n := by
  intro k hk
  obtain ⟨j, hj, rfl⟩ := Option.map_eq_some_iff.mp hk
  exact Nat.le_sub_of_add_le' (h j hj)

theorem wrote_wrote (t : Terminal) (bs cs : List Byte) :
    wrote (wrote t bs) cs = wrote t (bs ++ cs) := by
  simp only [wrote, List.append_assoc, Option.map_map, Function.comp_def, Nat.sub_sub,
    List.length_append]

theorem writeChar_accepted (h : Accepts s.term 1) (b : Byte) :
    writeChar b s = some { s with term := wrote s.term [b] } :=
  ((writeChar_cases b s).resolve_left fun hnone => accepts_one_iff.mp h hnone.1).2

theorem writeChar_refused (h : ¬ Accepts s.term 1) (b : Byte) : writeChar b s = none :=
  ((writeChar_cases b s).resolve_right fun hsome => h (accepts_one_iff.mpr hsome.1)).2

theorem flushOut_accepted (h : Accepts s.term 1) :
    flushOut s = some { s with term := { s.term with
      flushed := s.term.out.length, outLeft := s.term.outLeft.map (· - 1) } } :=
  ((flushOut_cases s).resolve_left fun hnone => accepts_one_iff.mp h hnone.1).2

theorem flushOut_refused (h : ¬ Accepts s.term 1) : flushOut s = none :=
  ((flushOut_cases s).resolve_right fun hsome => h (accepts_one_iff.mpr hsome.1)).2

/-- When the bytes do not all fit, those that fit are written and none is left to accept. -/
theorem writeChars_cut {k : Nat} (hk : s.term.outLeft = some k) (h : k < bs.length) :
    writeChars bs s = (false, { s with term := wrote s.term (bs.take k) }) := by
  have hleft : (wrote s.term (bs.take k)).outLeft = some 0 := by
    simp [wrote, hk, Nat.min_eq_left h.le]
  rw [writeChars_refused bs s k hk h, ← hleft]
  rfl

/-- The first byte of a nonempty string is already refused by a terminal that accepts nothing. -/
theorem writeChars_cons_refused (h : s.term.outLeft = some 0) (b : Byte) (bs : List Byte) :
    writeChars (b :: bs) s = (false, s) := by
  have hout : ¬ Accepts s.term 1 := fun haccepts => accepts_one_iff.mp haccepts h
  simp only [writeChars, writeChar_refused hout]

theorem readCharBlocking_unanswered (h : s.term.reads = []) : readCharBlocking s = (none, s) := by
  simp only [readCharBlocking, h]

theorem readCharBlocking_answered {a : ReadAnswer} (h : s.term.reads = a :: rest) :
    readCharBlocking s = (some a, { s with term := { s.term with reads := rest } }) := by
  simp only [readCharBlocking, h, State.setTerm]

end Sys2Proof.Machine
end

section
/-! SUPPORT. The six routines, one equation per outcome (43_trap R82 to R89). -/

namespace Sys2Proof.Machine

open Sys2Proof.Spec

variable {s : State} {c : Byte} {rest : List ReadAnswer}

/-- A byte in a register is 0 or positive: IN never sets N (43_trap R85). -/
theorem condOf_zext (c : Byte) : condOf (zext c) = if c = 0 then .Z else .P := by
  have hsign : (zext c).getLsbD 15 = false := by simp [zext]
  have hzero : zext c = 0x0000 ↔ c = 0 := by
    rw [← BitVec.toNat_inj, ← BitVec.toNat_inj, zext, BitVec.toNat_setWidth_of_le (by decide)]
    rfl
  simp only [condOf, hsign, hzero, Bool.false_eq_true, if_false]

theorem getcRead_unanswered (h : s.term.reads = []) : getcRead s = (.unfinished .getc, s) := by
  simp only [getcRead, readCharBlocking_unanswered h]

theorem getcRead_ioError (h : s.term.reads = .ioError :: rest) :
    getcRead s = (.fault .terminalIOError, { s with term := { s.term with reads := rest } }) := by
  simp only [getcRead, readCharBlocking_answered h]

theorem getcRead_byte (h : s.term.reads = .byte c :: rest) :
    getcRead s = (.ok, { s with
      x := RegFile.set s.x .r0 (0x00#8 ++ c)
      term := { s.term with reads := rest } }) := by
  simp only [getcRead, readCharBlocking_answered h, State.setReg, zext_eq_append]

theorem inRead_unanswered (h : s.term.reads = []) : inRead s = (.unfinished .inEcho, s) := by
  simp only [inRead, readCharBlocking_unanswered h]

theorem inRead_ioError (h : s.term.reads = .ioError :: rest) :
    inRead s = (.fault .terminalIOError, { s with term := { s.term with reads := rest } }) := by
  simp only [inRead, readCharBlocking_answered h]

theorem inRead_echoed (h : s.term.reads = .byte c :: rest) (hout : Accepts s.term 1) :
    inRead s = (.ok, { s with
      x := RegFile.set s.x .r0 (0x00#8 ++ c)
      cond := if c = 0 then .Z else .P
      term := { wrote s.term [c] with reads := rest } }) := by
  have hecho := writeChar_accepted (s := { s with term := { s.term with reads := rest } }) hout c
  rw [← condOf_zext, ← zext_eq_append]
  simp only [inRead, readCharBlocking_answered h, hecho]
  rfl

theorem inRead_echo_refused (h : s.term.reads = .byte c :: rest) (hout : ¬ Accepts s.term 1) :
    inRead s = (.fault .terminalIOError, { s with term := { s.term with reads := rest } }) := by
  have hecho := writeChar_refused (s := { s with term := { s.term with reads := rest } }) hout c
  simp only [inRead, readCharBlocking_answered h, hecho]

/-- IN whose prompt is accepted goes on from its read. -/
theorem inRoutine_prompted (h : Accepts s.term s.cfg.inPrompt.length) :
    inRoutine s = inRead { s with term := wrote s.term s.cfg.inPrompt } := by
  simp only [inRoutine, writeChars_accepted s.cfg.inPrompt s h]
  rfl

theorem inRoutine_prompt_cut {k : Nat} (hk : s.term.outLeft = some k)
    (h : k < s.cfg.inPrompt.length) :
    inRoutine s =
      (.fault .terminalIOError, { s with term := wrote s.term (s.cfg.inPrompt.take k) }) := by
  simp only [inRoutine, writeChars_cut hk h]

theorem outRoutine_accepted (h : Accepts s.term 1) :
    outRoutine s = (.ok, { s with term := wrote s.term [lowByte (s.reg .r0)] }) := by
  simp only [outRoutine, writeChar_accepted h]

theorem outRoutine_refused (h : ¬ Accepts s.term 1) :
    outRoutine s = (.fault .terminalIOError, s) := by
  simp only [outRoutine, writeChar_refused h]

theorem haltRoutine_accepted (h : Accepts s.term 1) :
    haltRoutine s = (.halt, { s with term := { s.term with
      flushed := s.term.out.length, outLeft := s.term.outLeft.map (· - 1) } }) := by
  simp only [haltRoutine, flushOut_accepted h]

theorem haltRoutine_refused (h : ¬ Accepts s.term 1) :
    haltRoutine s = (.fault .terminalIOError, s) := by
  simp only [haltRoutine, flushOut_refused h]

/-- A vector of no routine faults at once (43_trap R88). -/
theorem trapUnit_unknown {v : Byte} (h : ¬ KnownVector v) (s : State) :
    trapUnit v s = (.fault .unknownTrapVector, s) := by
  have hnone : routineOf v = none := by
    rw [routineOf_eq_none]
    simpa only [KnownVector, not_and_or, Nat.not_le] using h
  simp only [trapUnit, hnone]

/-- Only a poll of 0xFE00 touches the terminal. -/
theorem memRead_term {a : Word} (h : a ≠ kbsr) : (memRead a s).2.term = s.term := by
  simp only [memRead, if_neg h]
  split <;> rfl

/-- A string routine whose first word writes a byte fails at a terminal that accepts nothing. -/
theorem stringLoop_refused {emit : Word → List Byte × Bool} (rest : Word → TrapWork) {a : Word}
    (ha : a ≠ kbsr) (hout : s.term.outLeft = some 0) {b : Byte} {bs : List Byte}
    (hemit : (emit (s.mem.read a)).1 = b :: bs) :
    (stringLoop emit rest lap a s).1 = .fault .terminalIOError := by
  have hleft : (memRead a s).2.term.outLeft = some 0 := by rw [memRead_term ha, hout]
  rw [lap, stringLoop]
  simp only [memRead_fst s ha, hemit, writeChars_cons_refused hleft]

theorem putsEmit_nonzero {w : Word} (h : w ≠ 0) : (putsEmit w).1 = [lowByte w] := by
  simp only [putsEmit, if_neg h]

/-- Under either PUTSP_STOP a word with a nonzero low byte writes that byte first. -/
theorem putspEmit_lowByte {w : Word} (stop : PutspStop) (h : w ≠ 0) (hlow : lowByte w ≠ 0) :
    ∃ bs, (putspEmit stop w).1 = lowByte w :: bs := by
  cases stop with
  | zeroWord =>
    simp only [putspEmit, if_neg h]
    split <;> exact ⟨_, rfl⟩
  | zeroByte =>
    simp only [putspEmit, if_neg hlow]
    split <;> exact ⟨_, rfl⟩

end Sys2Proof.Machine
end

section
/-! SUPPORT. The TRAP step: the link, the trap unit, the ending (43_trap R80). -/

namespace Sys2Proof.Machine

open Sys2Proof.Spec

variable {s u : State} {fx : BitVec 4} {v : Byte}

theorem encode_trap_bitString (fx : BitVec 4) (vect : Byte) :
    encode (.trap fx vect) = 0b1111#4 ++ fx ++ vect := by
  rw [← place_at_zero (0b1111#4 ++ fx ++ vect)]
  simp only [place_append, encode]

/-- The ending writes no register. -/
theorem finishTrap_reg (w : Word) (a : TrapResult × State) (r : Reg) :
    (finishTrap w a).reg r = a.2.reg r := by
  simp only [State.reg, finishTrap_x]

/-- A TRAP that the check lets pass runs its routine on the linked state. -/
theorem exec_trap_of_fixedOk (h : FixedOk s (fx = 0b0000#4)) (v : Byte) :
    exec (.trap fx v) s =
      .next (finishTrap (encode (.trap fx v)) (trapUnit v (linked s))) :=
  congrArg Host.Outcome.next (checkFixedBits_of_fixedOk h beq_iff_eq.mpr _)

theorem exec_trap_ok (h : FixedOk s (fx = 0b0000#4)) (hu : trapUnit v (linked s) = (.ok, u)) :
    exec (.trap fx v) s = .next { u with busy := none } := by
  rw [exec_trap_of_fixedOk h, hu]; rfl

theorem exec_trap_halt (h : FixedOk s (fx = 0b0000#4))
    (hu : trapUnit v (linked s) = (.halt, u)) :
    exec (.trap fx v) s = .next { u with run := .halted, busy := none } := by
  rw [exec_trap_of_fixedOk h, hu]; rfl

/-- The record of a routine's fault has A, since no routine changes the pc. -/
theorem exec_trap_fault {k : FaultKind} (h : FixedOk s (fx = 0b0000#4))
    (hu : trapUnit v (linked s) = (.fault k, u)) :
    exec (.trap fx v) s = .next { u with
      run := .faulted ⟨k, s.pc - 1, encode (.trap fx v)⟩, busy := none } := by
  have hpc : (trapUnit v (linked s)).2.pc = s.pc := (trapUnit_frame v (linked s)).pc
  rw [exec_trap_of_fixedOk h, ← hpc, hu]; rfl

/-- The run state after a routine that faulted. -/
theorem exec_trap_fault_run {k : FaultKind} (h : FixedOk s (fx = 0b0000#4))
    (hk : (trapUnit v (linked s)).1 = .fault k) :
    ∃ t, exec (.trap fx v) s = .next t ∧
      t.run = .faulted ⟨k, s.pc - 1, encode (.trap fx v)⟩ :=
  ⟨_, exec_trap_fault h (Prod.ext hk rfl), rfl⟩

/-- Settles O29: the ending keeps the registers, the flags and the pc of the routine, whose frame
is that of the linked state. -/
theorem trapLinksAndEndsAsTheRoutineAnswers :
    Obligations.TrapLinksAndEndsAsTheRoutineAnswers := by
  refine ⟨encode_trap_bitString, fun s fx v => ⟨fun h => ?_, fun hs hfx => ?_⟩⟩
  · have frame := trapUnit_frame v (linked s)
    have hexec := exec_trap_of_fixedOk h v
    refine ⟨_, hexec, ?_, ?_, fun r h7 h0 => ?_, fun hgetc hin => ?_, fun hin => ?_,
      fun u hu => ?_, fun u hu => ?_, fun k u hu => ?_⟩
    · rw [finishTrap_reg, frame.reg .r7 (by decide)]; exact linkR7_reg_r7 s
    · rw [finishTrap_pc, frame.pc]; rfl
    · rw [finishTrap_reg, frame.reg r h0]; exact linkR7_reg_other s h7
    · rw [finishTrap_reg, frame.r0 hgetc hin]; exact linkR7_reg_other s (by decide)
    · rw [finishTrap_cond]; exact frame.cond.resolve_right fun hset => hin hset.1
    · exact Host.Outcome.next.inj (hexec.symm.trans (exec_trap_ok h hu))
    · exact Host.Outcome.next.inj (hexec.symm.trans (exec_trap_halt h hu))
    · exact Host.Outcome.next.inj (hexec.symm.trans (exec_trap_fault h hu))
  · exact exec_illegal _ s hs (beq_eq_false_iff_ne.mpr hfx)

theorem trapUnit_getc (s : State) : trapUnit 0x20 s = getcRead s := rfl

theorem trapUnit_out (s : State) : trapUnit 0x21 s = outRoutine s := rfl

theorem trapUnit_puts (s : State) :
    trapUnit 0x22 s = stringLoop putsEmit .puts lap (s.reg .r0) s := rfl

theorem trapUnit_in (s : State) : trapUnit 0x23 s = inRoutine s := rfl

theorem trapUnit_putsp (s : State) :
    trapUnit 0x24 s = stringLoop (putspEmit s.cfg.putspStop) .putsp lap (s.reg .r0) s := rfl

theorem trapUnit_halt (s : State) : trapUnit 0x25 s = haltRoutine s := rfl

/-- The link leaves R0, the argument of OUT, PUTS and PUTSP. -/
theorem linked_reg_r0 (s : State) : (linked s).reg .r0 = s.reg .r0 :=
  linkR7_reg_other s (by decide)

/-- Settles O31: one byte written, or refused, on the linked state, whose R0 is the old one. -/
theorem outWritesTheLowByteOfR0 : Obligations.OutWritesTheLowByteOfR0 := by
  intro s fx h
  refine ⟨fun hout => ?_, fun hout => ?_⟩
  · have hu := outRoutine_accepted (s := linked s) hout
    rw [linked_reg_r0, ← trapUnit_out] at hu
    exact exec_trap_ok h hu
  · exact exec_trap_fault h ((trapUnit_out _).trans <| outRoutine_refused (s := linked s) hout)

/-- Settles O34: the prompt is cut short, or IN goes on from its read at the terminal that wrote
the prompt, where the echo has one output operation less. -/
theorem inPromptsReadsEchoesAndSetsFlags : Obligations.InPromptsReadsEchoesAndSetsFlags := by
  intro s fx h
  have prompted (hprompt : Accepts s.term s.cfg.inPrompt.length) :=
    (trapUnit_in (linked s)).trans (inRoutine_prompted hprompt)
  refine ⟨fun c rest hread hout => ?_, fun rest hread hout => ?_, fun c rest hread hleft => ?_,
    fun k hk hcut => ?_⟩
  · have hprompt : Accepts s.term s.cfg.inPrompt.length :=
      fun k hk => Nat.le_of_succ_le (hout k hk)
    have hu := (prompted hprompt).trans (inRead_echoed hread (accepts_wrote hout))
    rw [wrote_wrote] at hu
    exact exec_trap_ok h hu
  · exact exec_trap_fault h ((prompted hout).trans (inRead_ioError hread))
  · have hprompt : Accepts s.term s.cfg.inPrompt.length :=
      fun k hk => (Option.some.inj (hleft.symm.trans hk)).le
    have hecho : ¬ Accepts (wrote s.term s.cfg.inPrompt) 1 :=
      fun hout => accepts_one_iff.mp hout (by simp [wrote, hleft])
    exact exec_trap_fault h ((prompted hprompt).trans (inRead_echo_refused hread hecho))
  · exact exec_trap_fault h ((trapUnit_in _).trans <| inRoutine_prompt_cut (s := linked s) hk hcut)

/-- Settles O38: the flush, then the halt, after which there is no step. -/
theorem haltFlushesAndEndsTheRun : Obligations.HaltFlushesAndEndsTheRun := by
  intro s fx h hout
  have hu := (trapUnit_halt _).trans (haltRoutine_accepted (s := linked s) hout)
  refine ⟨_, exec_trap_halt h hu, rfl, ?_⟩
  rintro ⟨u, hstep⟩
  cases (step_cases hstep).1

/-- Settles O39: the fault is raised in the linked state. -/
theorem unknownVectorFaultsAfterTheLink : Obligations.UnknownVectorFaultsAfterTheLink :=
  fun _ _ _ h hv => exec_trap_fault h (trapUnit_unknown hv _)

end Sys2Proof.Machine
end

section
/-! SUPPORT. The TRAP that goes on in a later step (43_trap R81, R89). -/

namespace Sys2Proof.Machine

open Sys2Proof.Spec

variable {s : State} {b : Busy} {k : TrapWork}

/-- The vector of the routine that an unfinished TRAP goes on with (43_trap R81). -/
def TrapWork.vector : TrapWork → Byte
  | .getc => 0x20
  | .inEcho => 0x23
  | .puts _ => 0x22
  | .putsp _ => 0x24

theorem TrapWork.vector_eq_getc_iff : k.vector = 0x20 ↔ k = .getc := by
  cases k <;> simp [TrapWork.vector]

theorem TrapWork.vector_eq_in_iff : k.vector = 0x23 ↔ k = .inEcho := by
  cases k <;> simp [TrapWork.vector]

/-- A block with a TRAP in progress goes on with it. -/
theorem step_resumed (hrun : s.run = .running) (hbusy : s.busy = some b) :
    step s = .next (finishTrap b.word (continueWork b.work s)) := by
  simp only [step, hrun, hbusy, resumeTrap]

/-- The rest of a routine has the frame of the routine. -/
theorem continueWork_frame (k : TrapWork) (s : State) :
    TrapFrame k.vector s (continueWork k s).2 := by
  cases k with
  | getc => exact trapUnit_frame 0x20 s
  | puts a => exact .ofTerminal (onlyTerminal_stringLoop _ _ _ _ _)
  | putsp a => exact .ofTerminal (onlyTerminal_stringLoop _ _ _ _ _)
  | inEcho =>
    obtain ⟨t, ht, h | h | ⟨_, ha | ha, -⟩ | ⟨_, ha, -⟩ | ⟨c, -, h⟩⟩ := continueWork_cases .inEcho s
    · rw [h]; exact .ofTerminal ht
    · rw [h]; exact .ofTerminal ht
    · cases ha
    · cases ha
    · cases ha
    · rw [h]
      have frame := TrapFrame.ofTerminal (v := 0x23) ht
      exact { frame with
        reg := fun r hr => (State.reg_setReg_other t _ hr).trans (frame.reg r hr)
        r0 := fun _ hin => absurd rfl hin
        cond := .inr ⟨rfl, congrArg condOf (State.reg_setReg_same t .r0 _).symm⟩ }

/-- GETC and IN access no memory. -/
theorem continueWork_mem (h : k = .getc ∨ k = .inEcho) (s : State) :
    (continueWork k s).2.mem = s.mem := by
  obtain rfl | rfl := h
  · show (getcRead s).2.mem = s.mem
    match h : s.term.reads with
    | [] => rw [getcRead_unanswered h]
    | .ioError :: _ => rw [getcRead_ioError h]
    | .byte _ :: _ => rw [getcRead_byte h]
  · show (inRead s).2.mem = s.mem
    match h : s.term.reads with
    | [] => rw [inRead_unanswered h]
    | .ioError :: _ => rw [inRead_ioError h]
    | .byte _ :: _ =>
      by_cases hout : Accepts s.term 1
      · rw [inRead_echoed h hout]
      · rw [inRead_echo_refused h hout]

/-- A step that goes on with a TRAP waits on, ends it, or faults with no register and no flag
changed. -/
theorem resumed_run_cases (hrun : s.run = .running) (b : Busy) :
    let t := finishTrap b.word (continueWork b.work s)
    (t.run = .running ∧ (t.busy = some b ∨ t.busy = none)) ∨
      (t.run = .faulted ⟨.terminalIOError, s.pc - 1, b.word⟩ ∧ t.busy = none ∧
        t.x = s.x ∧ t.cond = s.cond) := by
  obtain ⟨t, ht, h | h | ⟨_, -, h⟩ | ⟨c, -, h⟩ | ⟨c, -, h⟩⟩ := continueWork_cases b.work s <;>
    rw [h]
  · exact .inl ⟨ht.run.trans hrun, .inl rfl⟩
  · exact .inr ⟨by rw [← ht.pc]; rfl, rfl, ht.x, ht.cond⟩
  · exact .inl ⟨ht.run.trans hrun, .inr rfl⟩
  · exact .inl ⟨ht.run.trans hrun, .inr rfl⟩
  · exact .inl ⟨ht.run.trans hrun, .inr rfl⟩

/-- Settles O60: the ending changes the run state and `busy` only, the rest is the routine's
frame. -/
theorem stepOfABusyTrapKeepsTheFrame : Obligations.StepOfABusyTrapKeepsTheFrame := by
  intro s b hrun hbusy
  have frame := continueWork_frame b.work s
  refine ⟨_, step_resumed hrun hbusy, ?_⟩
  simp only [finishTrap_pc, finishTrap_cfg, finishTrap_term, finishTrap_reg, finishTrap_cond,
    finishTrap_mem]
  exact ⟨frame.pc, frame.cfg, frame.out, frame.reg,
    fun hgetc hin => frame.r0 (hgetc ∘ TrapWork.vector_eq_getc_iff.mp)
      (hin ∘ TrapWork.vector_eq_in_iff.mp),
    fun hin => frame.cond.resolve_right fun hset => hin (TrapWork.vector_eq_in_iff.mp hset.1),
    frame.cond.imp_right And.right, fun hread => continueWork_mem hread s, frame.cell,
    by simpa only [finishTrap_x, finishTrap_cond] using resumed_run_cases hrun b⟩

end Sys2Proof.Machine
end

section
/-! SUPPORT. The errors of the terminal, and the read that is not answered (43_trap R89). -/

namespace Sys2Proof.Machine

open Sys2Proof.Spec

variable {s t : State} {k : TrapWork} {r : FaultRecord}

/-- An instruction leaves Running by an encoding fault, by a fault opcode, or as a TRAP. -/
theorem exec_run_cases {i : Instr} (h : exec i s = .next t) :
    t.run = s.run ∨ t.run = .faulted ⟨.illegalEncoding, s.pc - 1, encode i⟩ ∨
      t.run = .faulted ⟨.reservedInstruction, s.pc - 1, encode i⟩ ∨
      ∃ fx v, i = .trap fx v ∧ t = finishTrap (encode i) (trapUnit v (linked s)) := by
  obtain ⟨-, -, rfl⟩ | ⟨-, rfl⟩ | ⟨_, _, u, hu, rfl⟩ | ⟨_, _, _, _, -, rfl⟩ | ⟨_, _, _, -, rfl⟩ |
    ⟨_, rfl⟩ | ⟨_, _, u, hu, rfl⟩ | ⟨fx, v, rfl, rfl⟩ := exec_cases h
  · exact .inr (.inl rfl)
  · exact .inr (.inr (.inl rfl))
  · exact .inl hu.run
  · left; split <;> rfl
  · exact .inl rfl
  · exact .inl rfl
  · exact .inl hu.run
  · exact .inr (.inr (.inr ⟨fx, v, rfl, rfl⟩))

/-- A routine that fails at the terminal has changed only the terminal and the keyboard cells. -/
theorem trapUnit_of_terminalIOError {w : Word} {v : Byte} (hrun : s.run = .running)
    (hfault : (finishTrap w (trapUnit v s)).run = .faulted r) (hkind : r.kind = .terminalIOError) :
    OnlyTerminal s (trapUnit v s).2 := by
  obtain ⟨t, ht, ⟨_, h⟩ | ⟨-, h⟩ | ⟨-, h⟩ | h | ⟨-, h⟩ | ⟨_, -, h⟩ | ⟨_, -, h⟩⟩ :=
    trapUnit_cases v s <;> rw [h] at hfault ⊢
  · exact ht
  · exact ht
  · cases hfault; cases hkind
  · exact ht
  · exact ht
  · cases hrun.symm.trans (ht.run.symm.trans hfault)
  · cases hrun.symm.trans (ht.run.symm.trans hfault)

/-- A TerminalIOError is a TRAP's, with R7 written, R0 and the flags not, and the output kept. -/
theorem exec_terminalIOError_frame {i : Instr} (hrun : s.run = .running)
    (hexec : exec i s = .next t) (hfault : t.run = .faulted r) (hkind : r.kind = .terminalIOError) :
    t.reg .r7 = s.pc ∧ t.reg .r0 = s.reg .r0 ∧ t.cond = s.cond ∧ s.term.out <+: t.term.out := by
  obtain h | h | h | ⟨fx, v, -, rfl⟩ := exec_run_cases hexec
  · cases hrun.symm.trans (h.symm.trans hfault)
  · cases h.symm.trans hfault; cases hkind
  · cases h.symm.trans hfault; cases hkind
  · have hu := trapUnit_of_terminalIOError (s := linked s) hrun hfault hkind
    have hreg (q : Reg) : (trapUnit v (linked s)).2.reg q = (linked s).reg q := by
      simp only [State.reg, hu.x]
    rw [finishTrap_reg, finishTrap_reg, hreg, hreg, finishTrap_cond, finishTrap_term]
    exact ⟨linkR7_reg_r7 s, linked_reg_r0 s, hu.cond, hu.out⟩

/-- A routine that waits on leaves the state as it was. -/
theorem step_waiting {w : Word} (hrun : s.run = .running) (hbusy : s.busy = some ⟨w, k⟩)
    (h : continueWork k s = (.unfinished k, s)) : step s = .next s := by
  rw [step_resumed hrun hbusy, h, finishTrap_unfinished, ← hbusy]
  rfl

/-- A routine that goes on and ends. -/
theorem step_resumed_ok {w : Word} (hrun : s.run = .running) (hbusy : s.busy = some ⟨w, k⟩)
    (h : continueWork k s = (.ok, t)) : step s = .next { t with busy := none } := by
  rw [step_resumed hrun hbusy, h]
  rfl

/-- A routine that goes on and faults: the record still has A, since the pc has not moved. -/
theorem step_resumed_fault {w : Word} {f : FaultKind} (hrun : s.run = .running)
    (hbusy : s.busy = some ⟨w, k⟩) (h : continueWork k s = (.fault f, t)) :
    step s = .next { t with run := .faulted ⟨f, s.pc - 1, w⟩, busy := none } := by
  have hpc : (continueWork k s).2.pc = s.pc := (continueWork_frame k s).pc
  rw [step_resumed hrun hbusy, ← hpc, h]
  rfl

/-- PUTS and PUTSP of a string whose first byte is not 0, at a terminal that accepts nothing. -/
theorem trapUnit_string_refused {v : Byte} (hv : v = 0x22 ∨ v = 0x24)
    (hleft : s.term.outLeft = some 0) (ha : s.reg .r0 ≠ kbsr) (hword : s.mem.read (s.reg .r0) ≠ 0)
    (hlow : lowByte (s.mem.read (s.reg .r0)) ≠ 0) :
    (trapUnit v s).1 = .fault .terminalIOError := by
  obtain rfl | rfl := hv
  · rw [trapUnit_puts]
    exact stringLoop_refused .puts ha hleft (putsEmit_nonzero hword)
  · obtain ⟨bs, hemit⟩ := putspEmit_lowByte s.cfg.putspStop hword hlow
    rw [trapUnit_putsp]
    exact stringLoop_refused .putsp ha hleft hemit

/-- Settles O40: the six routines' errors, the frame of such a fault, and the waiting GETC and IN
by the answer of their read. -/
theorem terminalErrorsFaultAndSilenceWaits : Obligations.TerminalErrorsFaultAndSilenceWaits := by
  refine ⟨fun s fx v h herror => ?_, fun i s t r => exec_terminalIOError_frame,
    fun s w k hrun hbusy hk => ⟨fun hread => ?_, ?_, ?_, ?_, fun rest hread => ?_⟩⟩
  · rw [← linked_reg_r0 s] at herror
    refine exec_trap_fault_run h ?_
    obtain ⟨⟨rest, hread⟩, rfl | ⟨rfl, hprompt⟩⟩ | ⟨hleft, hroutine⟩ := herror
    · rw [trapUnit_getc, getcRead_ioError (s := linked s) hread]
    · have hprompted := inRoutine_prompted (s := linked s) hprompt
      rw [trapUnit_in, hprompted.trans (inRead_ioError hread)]
    · have hout : ¬ Accepts (linked s).term 1 := fun haccepts => accepts_one_iff.mp haccepts hleft
      obtain rfl | rfl | ⟨rfl, hprompt⟩ | ⟨hv, ha, hword, hlow⟩ := hroutine
      · rw [trapUnit_out, outRoutine_refused hout]
      · rw [trapUnit_halt, haltRoutine_refused hout]
      · rw [trapUnit_in,
          inRoutine_prompt_cut (s := linked s) hleft (List.length_pos_iff.mpr hprompt)]
      · exact trapUnit_string_refused hv hleft ha hword hlow
  · obtain rfl | rfl := hk
    · exact step_waiting hrun hbusy (getcRead_unanswered hread)
    · exact step_waiting hrun hbusy (inRead_unanswered hread)
  · rintro c rest rfl hread
    exact step_resumed_ok hrun hbusy (getcRead_byte hread)
  · rintro c rest rfl hread hout
    exact step_resumed_ok hrun hbusy (inRead_echoed hread hout)
  · rintro c rest rfl hread hout
    exact step_resumed_fault hrun hbusy (inRead_echo_refused hread hout)
  · obtain rfl | rfl := hk
    · exact step_resumed_fault hrun hbusy (getcRead_ioError hread)
    · exact step_resumed_fault hrun hbusy (inRead_ioError hread)

end Sys2Proof.Machine
end

section
/-! SUPPORT. RTI and the reserved opcode 1101 (44_fault_opcodes R90, R91). -/

namespace Sys2Proof.Machine

variable {s : State} {op : BitVec 4} {low : BitVec 12}

/-- The word of the two fault opcodes: opcode and ignored low bits side by side. -/
theorem faultOpcode_bitString (op : BitVec 4) (low : BitVec 12) :
    place 12 op ||| place 0 low = op ++ low := by
  rw [← place_at_zero (op ++ low)]
  simp only [place_append]

/-- The opcode field is the first four bits of the word's bit string (30_encoding R47). -/
theorem opcodeOf_append (op : BitVec 4) (low : BitVec 12) : opcodeOf (op ++ low) = op :=
  BitVec.extractLsb'_append_eq_left

/-- Raising ReservedInstruction changes the run state alone, and its record holds the word's bit
string. -/
theorem exec_of_reservedInstruction {i : Instr} (hword : encode i = op ++ low)
    (hexec : exec i s = .next (raiseFault .reservedInstruction (encode i) s)) :
    exec i s = .next { s with run := .faulted ⟨.reservedInstruction, s.pc - 1, op ++ low⟩ } := by
  rw [hexec, hword]
  rfl

/-- Settles O41: RTI raises the fault in every state, with its own word. -/
theorem rtiFaults : Obligations.RtiFaults := fun _ low =>
  have hword : encode (.rti low) = 0b1000#4 ++ low := faultOpcode_bitString _ low
  ⟨hword, exec_of_reservedInstruction hword rfl, opcodeOf_append _ low⟩

/-- Settles O42: the reserved opcode raises the fault in every state, with its own word. -/
theorem reservedOpcodeFaults : Obligations.ReservedOpcodeFaults := fun _ low =>
  have hword : encode (.reserved low) = 0b1101#4 ++ low := faultOpcode_bitString _ low
  ⟨hword, exec_of_reservedInstruction hword rfl, opcodeOf_append _ low⟩

end Sys2Proof.Machine
end

section
/-! SUPPORT. Fault entry over all instructions, and that every step of a running block answers a
next state (60_exceptions R92 to R94, R96; 30_encoding R45). -/

namespace Sys2Proof.Machine

open Sys2Proof.Spec

variable {s t : State} {i : Instr} {r : FaultRecord}

/-- An instruction that the fixed-bit check lets pass has its fixed bits unchecked or right. -/
theorem fixedOk_of_not_illegal (h : ¬ Illegal i s) : FixedOk s (i.wellFormed = true) := by
  rw [Illegal, not_and_or, Bool.not_eq_true, Bool.not_eq_false] at h
  exact h

/-- The vectors of no routine are those outside 0x20 to 0x25 (43_trap R81). -/
theorem routineOf_eq_none_iff_not_known {v : Byte} : routineOf v = none ↔ ¬ KnownVector v := by
  rw [routineOf_eq_none, KnownVector, not_and_or, Nat.not_le, Nat.not_le]

/-- A running block that a TRAP's ending leaves Faulted: the terminal failed, or there was no
routine and nothing happened (43_trap R88, R89). -/
theorem trapUnit_fault_cases {w : Word} {v : Byte} (hrun : s.run = .running)
    (hfault : (finishTrap w (trapUnit v s)).run = .faulted r) :
    (KnownVector v ∧ ∃ u, OnlyTerminal s u ∧ trapUnit v s = (.fault .terminalIOError, u)) ∨
    (¬ KnownVector v ∧ trapUnit v s = (.fault .unknownTrapVector, s)) := by
  obtain ⟨u, hu, ⟨_, h⟩ | ⟨hv, h⟩ | ⟨hv, h⟩ | h | ⟨-, h⟩ | ⟨_, -, h⟩ | ⟨_, -, h⟩⟩ :=
    trapUnit_cases v s <;> rw [h] at hfault
  · cases hrun.symm.trans (hu.run.symm.trans hfault)
  · exact .inl ⟨not_not.mp (routineOf_eq_none_iff_not_known.not.mp hv), u, hu, h⟩
  · exact .inr ⟨routineOf_eq_none_iff_not_known.mp hv, h⟩
  · cases hrun.symm.trans (hu.run.symm.trans hfault)
  · cases hfault
  · cases hrun.symm.trans (hu.run.symm.trans hfault)
  · cases hrun.symm.trans (hu.run.symm.trans hfault)

/-- The whole state that each kind of fault leaves, and the instructions that raise it
(60_exceptions R92, R94, R96). -/
theorem exec_faulted_cases (hrun : s.run = .running) (hexec : exec i s = .next t)
    (hfault : t.run = .faulted r) :
    (Illegal i s ∧ t = faulted .illegalEncoding (encode i) s) ∨
    ((∃ low, i = .rti low ∨ i = .reserved low) ∧
      t = faulted .reservedInstruction (encode i) s) ∨
    (¬ Illegal i s ∧ ∃ fx v, i = .trap fx v ∧
      ((¬ KnownVector v ∧
          t = { faulted .unknownTrapVector (encode i) (linked s) with busy := none }) ∨
        (KnownVector v ∧ ∃ u, OnlyTerminal (linked s) u ∧
          t = { faulted .terminalIOError (encode i) u with busy := none }))) := by
  by_cases hillegal : Illegal i s
  · exact .inl ⟨hillegal,
      Host.Outcome.next.inj (hexec.symm.trans (exec_illegal i s hillegal.1 hillegal.2))⟩
  obtain ⟨hs, hi, -⟩ | h | ⟨_, _, u, hu, rfl⟩ | ⟨_, _, _, _, -, rfl⟩ | ⟨_, _, _, -, rfl⟩ |
    ⟨_, rfl⟩ | ⟨_, _, u, hu, rfl⟩ | ⟨fx, v, hi, rfl⟩ := exec_cases hexec
  · exact absurd ⟨hs, hi⟩ hillegal
  · exact .inr (.inl h)
  · cases hrun.symm.trans (hu.run.symm.trans hfault)
  · split at hfault <;> cases hrun.symm.trans hfault
  · cases hrun.symm.trans hfault
  · cases hrun.symm.trans hfault
  · cases hrun.symm.trans (hu.run.symm.trans hfault)
  · refine .inr (.inr ⟨hillegal, fx, v, hi, ?_⟩)
    obtain ⟨hv, u, hu, h⟩ | ⟨hv, h⟩ := trapUnit_fault_cases (s := linked s) hrun hfault
    · exact .inr ⟨hv, u, hu, congrArg (finishTrap _) h⟩
    · exact .inl ⟨hv, congrArg (finishTrap _) h⟩

/-- The record of a fault holds A and the instruction's word, and the pc stays A + 1 (60_exceptions
R94). -/
theorem exec_fault_record (hrun : s.run = .running) (hexec : exec i s = .next t)
    (hfault : t.run = .faulted r) :
    ∃ k, r = ⟨k, s.pc - 1, encode i⟩ ∧ t.pc = s.pc := by
  obtain ⟨-, rfl⟩ | ⟨-, rfl⟩ | ⟨-, _, _, -, ⟨-, rfl⟩ | ⟨-, u, hu, rfl⟩⟩ :=
    exec_faulted_cases hrun hexec hfault
  · cases hfault; exact ⟨_, rfl, rfl⟩
  · cases hfault; exact ⟨_, rfl, rfl⟩
  · cases hfault; exact ⟨_, rfl, rfl⟩
  · have hpc : u.pc = s.pc := hu.pc
    cases hfault; exact ⟨_, by rw [hpc], hpc⟩

/-- Settles O43: the check and the unknown vector come from the equations of the instructions; the
record and what each kind leaves come from the case split over the faults. -/
theorem faultsAreThoseOfTheTable : Obligations.FaultsAreThoseOfTheTable := by
  refine ⟨rfl, rfl, rfl, rfl, fun i s t hrun hexec => ⟨fun hillegal => ?_, ?_, ?_,
    fun r hfault => ?_⟩⟩
  · cases hexec.symm.trans (exec_illegal i s hillegal.1 hillegal.2)
    exact ⟨_, rfl, rfl⟩
  · rintro ⟨low, rfl | rfl⟩ <;> (cases hexec; exact ⟨_, rfl, rfl⟩)
  · rintro fx v rfl hlegal hv
    have hfixed : FixedOk s (fx = 0b0000#4) :=
      (fixedOk_of_not_illegal hlegal).imp_right beq_iff_eq.mp
    cases hexec.symm.trans (exec_trap_fault hfixed (trapUnit_unknown hv (linked s)))
    exact ⟨_, rfl, rfl⟩
  · obtain ⟨k, rfl, hpc⟩ := exec_fault_record hrun hexec hfault
    refine ⟨rfl, rfl, hpc, rfl, rfl, FaultRecord.vect_encode i k _, ?_⟩
    obtain ⟨hillegal, rfl⟩ | ⟨hopcode, rfl⟩ |
      ⟨hlegal, fx, v, hi, ⟨hv, rfl⟩ | ⟨hv, u, hu, rfl⟩⟩ := exec_faulted_cases hrun hexec hfault
    · cases hfault; exact ⟨hillegal, rfl⟩
    · cases hfault; exact ⟨hopcode, rfl⟩
    · cases hfault; exact ⟨⟨fx, v, hi, hv⟩, hlegal, rfl⟩
    · obtain rfl : .terminalIOError = k := congrArg FaultRecord.kind (RunState.faulted.inj hfault)
      exact ⟨⟨fx, v, hi, hv⟩, hlegal, hu.x, hu.cond, hu.out, hu.cell⟩

/-- A running block steps, with a new instruction or with the TRAP in progress (30_encoding R45). -/
theorem step_of_running (hrun : s.run = .running) : ∃ t, step s = .next t := by
  cases hbusy : s.busy with
  | none => rw [step_fetched hrun hbusy]; exact exec_next _ _
  | some b => exact ⟨_, step_resumed hrun hbusy⟩

/-- Settles O46: every arm of `exec` answers a next state, and a step that does began in a running
block. -/
theorem runningBlockAlwaysSteps : Obligations.RunningBlockAlwaysSteps :=
  ⟨exec_next, fun _ => ⟨step_of_running, fun ⟨_, hstep⟩ => (step_cases hstep).1⟩⟩

end Sys2Proof.Machine
end

section
/-! SUPPORT. The loader: image files as big-endian words, the payload in memory, and the start of
a run (70_reset R102 to R105). -/

namespace Sys2Proof.Machine

variable {o a : Word} {ws : List Word} {m : Memory} {bytes : List Byte}

/-- The address of payload word k + 1 is that of word k from the next cell on. -/
theorem add_ofNat_succ (o : Word) (k : Nat) :
    o + BitVec.ofNat 16 (k + 1) = o + 1 + BitVec.ofNat 16 k := by
  bv_omega

/-- Loading a payload keeps the canonical form. -/
theorem loadWords_wf (hm : m.wf) : (loadWords o ws m).wf := by
  induction ws generalizing o m with
  | nil => exact hm
  | cons w ws ih => exact ih (Memory.write_wf hm)

/-- A cell that is the address of no payload word is left alone, at any origin. -/
theorem read_loadWords_other (h : ∀ k < ws.length, a ≠ o + BitVec.ofNat 16 k) :
    (loadWords o ws m).read a = m.read a := by
  induction ws generalizing o m with
  | nil => rfl
  | cons w ws ih =>
    have hfirst : a ≠ o := by simpa using h 0 (by simp)
    have hrest : ∀ k < ws.length, a ≠ o + 1 + BitVec.ofNat 16 k := fun k hk =>
      add_ofNat_succ o k ▸ h (k + 1) (by simpa using hk)
    exact (ih hrest).trans (Memory.read_write_other hfirst)

/-- Payload word k reads back at origin + k: a payload no longer than the address space writes no
cell twice. -/
theorem read_loadWords_payload {k : Nat} {w : Word} (hm : m.wf) (hlen : ws.length ≤ 0x10000)
    (hk : ws[k]? = some w) : (loadWords o ws m).read (o + BitVec.ofNat 16 k) = w := by
  induction ws generalizing o m k with
  | nil => simp at hk
  | cons v ws ih =>
    rw [List.length_cons] at hlen
    cases k with
    | zero =>
      obtain rfl : v = w := by simpa using hk
      have hother : ∀ j < ws.length, o ≠ o + 1 + BitVec.ofNat 16 j := by
        intro j hj
        bv_omega
      rw [BitVec.add_zero, loadWords, read_loadWords_other hother]
      exact Memory.read_write_same hm
    | succ k =>
      rw [add_ofNat_succ]
      exact ih (Memory.write_wf hm) (by omega) (by simpa using hk)

/-- The addresses of a payload that fits do not wrap around: a cell below the origin or from the
payload's end on is none of them. -/
theorem ne_payload_address (hfit : o.toNat + ws.length ≤ 0x10000)
    (ha : a.toNat < o.toNat ∨ o.toNat + ws.length ≤ a.toNat) :
    ∀ k < ws.length, a ≠ o + BitVec.ofNat 16 k := by
  intro k hk
  bv_omega

/-- Settles O57: the payload is written cell by cell upwards, so each word reads back at its own
address and the cells outside the range are left alone. -/
theorem loadingPutsThePayloadAtItsOrigin : Obligations.LoadingPutsThePayloadAtItsOrigin :=
  ⟨fun _ => rfl, fun _ => rfl, fun _ _ _ => rfl, fun _ _ _ hm hfit =>
    ⟨loadWords_wf hm, fun _ _ hk => read_loadWords_payload hm (by omega) hk,
      fun _ ha => read_loadWords_other (ne_payload_address hfit ha)⟩⟩

/-- Two bytes side by side are their big-endian value (70_reset R102). -/
theorem toNat_append_bytes (hi lo : Byte) : (hi ++ lo).toNat = hi.toNat * 256 + lo.toNat := by
  rw [BitVec.toNat_append, ← Nat.shiftLeft_add_eq_or_of_lt lo.isLt, Nat.shiftLeft_eq]

/-- A word in front leaves an odd number of bytes odd and an even one even. -/
theorem length_cons_cons_mod_two (hi lo : Byte) (bytes : List Byte) :
    (hi :: lo :: bytes).length % 2 = bytes.length % 2 :=
  Nat.add_mod_right bytes.length 2

/-- An odd number of bytes is no list of words (70_reset R104). -/
theorem bigEndianWords_of_odd (h : bytes.length % 2 = 1) : bigEndianWords bytes = none := by
  induction bytes using bigEndianWords.induct with
  | case1 => cases h
  | case2 => rfl
  | case3 hi lo rest ih =>
    rw [length_cons_cons_mod_two] at h
    rw [bigEndianWords, ih h, Option.map_none]

/-- Word k is bytes 2k and 2k + 1 (70_reset R102). -/
def WordsAreBytePairs (bytes : List Byte) (ws : List Word) : Prop :=
  ws.length = bytes.length / 2 ∧
  ∀ k, (h : k < ws.length) → ∃ hi lo,
    bytes[2 * k]? = some hi ∧ bytes[2 * k + 1]? = some lo ∧
    (ws[k]'h).toNat = hi.toNat * 256 + lo.toNat

/-- Two more bytes in front are one more word in front. -/
theorem WordsAreBytePairs.cons (h : WordsAreBytePairs bytes ws) (hi lo : Byte) :
    WordsAreBytePairs (hi :: lo :: bytes) ((hi ++ lo) :: ws) := by
  obtain ⟨hlen, hword⟩ := h
  refine ⟨(congrArg (· + 1) hlen).trans (Nat.add_div_right _ Nat.two_pos).symm, fun k hk => ?_⟩
  cases k with
  | zero => exact ⟨hi, lo, rfl, rfl, toNat_append_bytes hi lo⟩
  | succ k => exact hword k (by simpa using hk)

/-- An even number of bytes is read as words two by two. -/
theorem bigEndianWords_of_even (h : bytes.length % 2 = 0) :
    ∃ ws, bigEndianWords bytes = some ws ∧ WordsAreBytePairs bytes ws := by
  induction bytes using bigEndianWords.induct with
  | case1 => exact ⟨[], rfl, rfl, nofun⟩
  | case2 => cases h
  | case3 hi lo rest ih =>
    rw [length_cons_cons_mod_two] at h
    obtain ⟨ws, hws, hpairs⟩ := ih h
    exact ⟨(hi ++ lo) :: ws, by rw [bigEndianWords, hws, Option.map_some], hpairs.cons hi lo⟩

/-- A file without an origin, or with an odd number of bytes, is truncated. -/
theorem parseImage_truncated (h : bytes.length < 2 ∨ bytes.length % 2 = 1) :
    parseImage (some bytes) = .error .truncated := by
  obtain rfl | hodd : bytes = [] ∨ bytes.length % 2 = 1 := by
    rw [← List.length_eq_zero_iff]
    omega
  · rfl
  · simp only [parseImage, bigEndianWords_of_odd hodd]

/-- An even file of two bytes or more has the first two as its origin and the rest as its payload,
and the only question left is whether the payload fits. -/
theorem parseImage_of_even (b0 b1 : Byte) (h : bytes.length % 2 = 0) :
    ∃ ws, WordsAreBytePairs bytes ws ∧
      parseImage (some (b0 :: b1 :: bytes)) =
        if (b0 ++ b1).toNat + ws.length > 0x10000 then .error .doesNotFit
        else .ok ⟨b0 ++ b1, ws⟩ := by
  obtain ⟨ws, hws, hpairs⟩ := bigEndianWords_of_even h
  exact ⟨ws, hpairs, by simp only [parseImage, bigEndianWords, hws, Option.map_some]⟩

/-- The error of an image is the error of the load, whatever the later files are. -/
theorem loadImages_of_error {f : Option (List Byte)} {e : ImageLoadError}
    (h : parseImage f = .error e) (fs : List (Option (List Byte))) (m : Memory) :
    loadImages (f :: fs) m = .error e := by
  simp only [loadImages, h]

/-- After an image that loads, the later files are loaded on the memory it leaves. -/
theorem loadImages_of_ok {f : Option (List Byte)} {im : Image}
    (h : parseImage f = .ok im) (fs : List (Option (List Byte))) (m : Memory) :
    loadImages (f :: fs) m = loadImages fs (loadWords im.origin im.payload m) := by
  simp only [loadImages, h]

/-- After a load error there is no start state. -/
theorem boot_of_error {files : List (Option (List Byte))} {e : ImageLoadError}
    (h : loadImages files [] = .error e) (cfg : Config) (term : Terminal) :
    boot cfg term files = .error e := by
  rw [boot, h]; rfl

/-- A run starts in the start state with the loaded memory. -/
theorem boot_of_ok {files : List (Option (List Byte))} (h : loadImages files [] = .ok m)
    (cfg : Config) (term : Terminal) : boot cfg term files = .ok (State.start cfg term m) := by
  rw [boot, h]; rfl

/-- Settles O58: the number of bytes decides between a truncated file and a list of words, whose
first is the origin and whose length decides whether the payload fits. -/
theorem imagesAreBigEndianWordsOrErrors : Obligations.ImagesAreBigEndianWordsOrErrors := by
  refine ⟨rfl, fun _ => parseImage_truncated, ?_, fun _ fs m _ h => loadImages_of_error h fs m,
    fun _ fs m _ h => loadImages_of_ok h fs m, fun cfg term _ _ h => boot_of_error h cfg term⟩
  rintro _ b0 b1 rest rfl heven
  rw [length_cons_cons_mod_two] at heven
  obtain ⟨ws, ⟨hlen, hwords⟩, hparse⟩ := parseImage_of_even b0 b1 heven
  rw [toNat_append_bytes, hlen] at hparse
  refine ⟨fun hlong => by rw [hparse, if_pos hlong], fun hfits => ?_⟩
  exact ⟨⟨b0 ++ b1, ws⟩, by rw [hparse, if_neg (by omega)], toNat_append_bytes b0 b1, hlen, hwords⟩

/-- Settles O56: the start of a run is `State.start`, with the loaded memory or, at reset, with no
cell written. -/
theorem runStartsAsTheRuleSays : Obligations.RunStartsAsTheRuleSays :=
  ⟨fun cfg term _ _ h => ⟨_, boot_of_ok h cfg term, rfl, rfl, rfl, rfl, rfl, rfl, fun _ => rfl⟩,
    rfl, rfl, rfl, fun _ => rfl⟩

end Sys2Proof.Machine
end

section
/-! SUPPORT. Words written out and words given back by the encoder (30_encoding R47, R49). -/

namespace Sys2Proof

/-- Settles O2: the fields of each row fill the word. -/
theorem encodeOfDecodeIsTheWord : Obligations.EncodeOfDecodeIsTheWord :=
  encode_decode

/-- Settles O4: nineteen closed words, decoded. -/
theorem specWordsDecodeToTheirInstructions : Obligations.SpecWordsDecodeToTheirInstructions := by
  unfold Obligations.SpecWordsDecodeToTheirInstructions
  decide

end Sys2Proof
end

section
/-! SUPPORT. No operation but BR reads the flags (10_state R19): every other one does the same
from a state with other flags, to everything but the flags. -/

namespace Sys2Proof.Machine

variable (c : Cond) (s : State)

theorem pollChar_setCond :
    pollChar (s.setCond c) = ((pollChar s).1, (pollChar s).2.setCond c) := by
  simp only [pollChar, State.setCond_term]; split <;> rfl

theorem kbsrPoll_setCond : kbsrPoll (s.setCond c) = (kbsrPoll s).setCond c := by
  simp only [kbsrPoll, pollChar_setCond]
  split
  · rfl
  · simp only [State.setCond_cfg]; split <;> rfl

theorem memRead_setCond (a : Word) :
    memRead a (s.setCond c) = ((memRead a s).1, (memRead a s).2.setCond c) := by
  simp only [memRead, kbsrPoll_setCond]
  split <;> split <;> rfl

theorem readCharBlocking_setCond :
    readCharBlocking (s.setCond c) =
      ((readCharBlocking s).1, (readCharBlocking s).2.setCond c) := by
  simp only [readCharBlocking, State.setCond_term]; split <;> rfl

theorem writeChar_setCond (b : Byte) :
    writeChar b (s.setCond c) = (writeChar b s).map (State.setCond c) := by
  simp only [writeChar, State.setCond_term]; split <;> rfl

theorem writeChars_setCond (bs : List Byte) :
    writeChars bs (s.setCond c) = ((writeChars bs s).1, (writeChars bs s).2.setCond c) := by
  induction bs generalizing s with
  | nil => rfl
  | cons b bs ih =>
    simp only [writeChars, writeChar_setCond]
    cases writeChar b s with
    | none => rfl
    | some t => exact ih t

theorem flushOut_setCond : flushOut (s.setCond c) = (flushOut s).map (State.setCond c) := by
  simp only [flushOut, State.setCond_term]; split <;> rfl

theorem stringLoop_setCond (emit : Word → List Byte × Bool) (rest : Word → TrapWork) (n : Nat)
    (a : Word) :
    stringLoop emit rest n a (s.setCond c) =
      ((stringLoop emit rest n a s).1, (stringLoop emit rest n a s).2.setCond c) := by
  induction n generalizing a s with
  | zero => rfl
  | succ n ih =>
    simp only [stringLoop, memRead_setCond, writeChars_setCond]
    rcases writeChars (emit (memRead a s).1).1 (memRead a s).2 with ⟨_ | _, t⟩
    · rfl
    · simp only [ih]; split <;> rfl

/-- A result overwrites the flags it found. -/
theorem writeResult_setCond (dr : Reg) (v : Word) :
    writeResult dr v (s.setCond c) = writeResult dr v s := rfl

theorem loadInto_setCond (dr : Reg) (a : Word) :
    loadInto dr a (s.setCond c) = loadInto dr a s := by
  simp only [loadInto_eq, memRead_setCond, writeResult_setCond]

theorem outRoutine_setCond :
    outRoutine (s.setCond c) = ((outRoutine s).1, (outRoutine s).2.setCond c) := by
  have hr0 : (s.setCond c).reg .r0 = s.reg .r0 := rfl
  simp only [outRoutine, writeChar_setCond, hr0]
  cases writeChar (lowByte (s.reg .r0)) s <;> rfl

theorem haltRoutine_setCond :
    haltRoutine (s.setCond c) = ((haltRoutine s).1, (haltRoutine s).2.setCond c) := by
  simp only [haltRoutine, flushOut_setCond]
  cases flushOut s <;> rfl

/-- An answer and a state, whatever the flags of the state are. -/
def SameButCond (r r' : TrapResult × State) : Prop := ∃ d, r' = (r.1, r.2.setCond d)

theorem getcRead_setCond : SameButCond (getcRead s) (getcRead (s.setCond c)) := by
  refine ⟨c, ?_⟩
  simp only [getcRead, readCharBlocking_setCond]
  rcases readCharBlocking s with ⟨_ | _ | _, t⟩ <;> rfl

/-- IN reads no flags: it leaves those it found, or sets them from the character. -/
theorem inRead_setCond : SameButCond (inRead s) (inRead (s.setCond c)) := by
  simp only [inRead, readCharBlocking_setCond]
  rcases readCharBlocking s with ⟨_ | b | _, t⟩
  · exact ⟨c, rfl⟩
  · simp only [writeChar_setCond]
    cases writeChar b t with
    | none => exact ⟨c, rfl⟩
    | some u => exact ⟨(writeResult .r0 (zext b) u).cond, rfl⟩
  · exact ⟨c, rfl⟩

theorem inRoutine_setCond : SameButCond (inRoutine s) (inRoutine (s.setCond c)) := by
  simp only [inRoutine, State.setCond_cfg, writeChars_setCond]
  rcases writeChars s.cfg.inPrompt s with ⟨_ | _, t⟩
  · exact ⟨c, rfl⟩
  · exact inRead_setCond c t

theorem trapUnit_setCond (v : Byte) :
    SameButCond (trapUnit v s) (trapUnit v (s.setCond c)) := by
  unfold trapUnit
  split
  · exact getcRead_setCond c s
  · exact ⟨c, outRoutine_setCond c s⟩
  · exact ⟨c, stringLoop_setCond c s _ _ _ _⟩
  · exact inRoutine_setCond c s
  · exact ⟨c, stringLoop_setCond c s _ _ _ _⟩
  · exact ⟨c, haltRoutine_setCond c s⟩
  · exact ⟨c, rfl⟩

theorem finishTrap_setCond (w : Word) (r : TrapResult × State) :
    finishTrap w (r.1, r.2.setCond c) = (finishTrap w r).setCond c := by
  obtain ⟨r, t⟩ := r
  cases r <;> rfl

/-- The fixed-bit check reads the parameters only. -/
theorem checkFixedBits_setCond (i : Instr) {t t' : State} (h : ∃ d, t' = t.setCond d) :
    ∃ d, checkFixedBits i (s.setCond c) t' = (checkFixedBits i s t).setCond d := by
  obtain ⟨d, rfl⟩ := h
  unfold checkFixedBits
  rw [State.setCond_cfg]
  split
  · exact ⟨c, rfl⟩
  · exact ⟨d, rfl⟩

/-- LDI reads its pointer, then its data, from whatever flags. -/
theorem execLdi_setCond (dr : Reg) (off9 : BitVec 9) :
    execLdi dr off9 (s.setCond c) = execLdi dr off9 s := by
  have hpointer : pcRel9 off9 (s.setCond c) = pcRel9 off9 s := rfl
  rw [execLdi_eq, execLdi_eq, hpointer, memRead_setCond, loadInto_setCond]

theorem execSti_setCond (sr : Reg) (off9 : BitVec 9) :
    execSti sr off9 (s.setCond c) =
      .next ((memWrite (memRead (pcRel9 off9 s) s).1 ((memRead (pcRel9 off9 s) s).2.reg sr)
        (memRead (pcRel9 off9 s) s).2).setCond c) := by
  have hpointer : pcRel9 off9 (s.setCond c) = pcRel9 off9 s := rfl
  rw [execSti_eq, hpointer, memRead_setCond]
  rfl

/-- An instruction other than BR, run with other flags, does the same but for the flags: it keeps
those it found, or sets its own. -/
theorem exec_setCond {i : Instr} {t : State} (hbr : ∀ n z p off9, i ≠ .br n z p off9)
    (h : exec i s = .next t) : ∃ d, exec i (s.setCond c) = .next (t.setCond d) := by
  have checked {u u' : State} (hu : ∃ d, u' = u.setCond d) :
      ∃ d, Host.Outcome.next (φ := Fault) (ρ := Refusal) (checkFixedBits i (s.setCond c) u') =
        .next ((checkFixedBits i s u).setCond d) :=
    (checkFixedBits_setCond c s i hu).imp fun _ => congrArg Host.Outcome.next
  have overwritten (e : exec i (s.setCond c) = exec i s) :
      ∃ d, exec i (s.setCond c) = .next (t.setCond d) := ⟨t.cond, e.trans h⟩
  cases i with
  | br n z p off9 => exact absurd rfl (hbr n z p off9)
  | addReg | andReg | not => cases h; exact checked ⟨_, rfl⟩
  | addImm | andImm | lea => exact overwritten rfl
  | ld dr off9 => exact overwritten (congrArg Host.Outcome.next (loadInto_setCond c s dr _))
  | ldr dr base off6 => exact overwritten (congrArg Host.Outcome.next (loadInto_setCond c s dr _))
  | ldi dr off9 => exact overwritten (execLdi_setCond c s dr off9)
  | jmp | jsrr => cases h; exact checked ⟨c, rfl⟩
  | jsr | st | str | rti | reserved => cases h; exact ⟨c, rfl⟩
  | sti sr off9 =>
    cases h
    exact ⟨c, execSti_setCond c s sr off9⟩
  | trap fx v =>
    cases h
    obtain ⟨d, hd⟩ := trapUnit_setCond c (linkR7 s) v
    refine checked ⟨d, ?_⟩
    rw [← finishTrap_setCond, ← hd]
    rfl

/-- Settles O48: each operation but BR's test either keeps the flags it found or overwrites them,
and reads nothing from them. -/
theorem onlyBranchReadsTheFlags : Obligations.OnlyBranchReadsTheFlags := by
  intro i s t c hbr h
  obtain ⟨d, hd⟩ := exec_setCond c s hbr h
  exact ⟨t.setCond d, hd, rfl⟩

end Sys2Proof.Machine
end

section
/-! SUPPORT. Everything an instruction that the fixed-bit check lets pass can do, with the register,
the address and the pc of the spec's tables (10_state R16, R19, R22; 42_load_store R77 to R79). -/

namespace Sys2Proof.Machine

open Sys2Proof.Spec

/-- What instruction `i` leaves of state `s`, by its kind: a result in DR, a stored register, a pc,
a link and a pc, a TRAP, or a fault opcode. `u` is what the reads of memory made of the state. -/
inductive Effect (i : Instr) (s : State) : State → Prop
  | result {dr : Reg} {u : State} (v : Word) (hdr : flagSource i = some dr)
      (hu : OnlyTerminal s u) : Effect i s (writeResult dr v u)
  | store {sr : Reg} {a : Word} {u : State} (hsr : storeSource i = some sr)
      (ha : storeAddress i s = some a) (hu : OnlyTerminal s u) :
      Effect i s (memWrite a (s.reg sr) u)
  | jump (hi : (∃ n z p off9, i = .br n z p off9) ∨ ∃ hi base lo, i = .jmp hi base lo) :
      Effect i s (s.setPc (pcAfter i s))
  | link (hi : (∃ off11, i = .jsr off11) ∨ ∃ hi base lo, i = .jsrr hi base lo) :
      Effect i s ((linkR7 s).setPc (pcAfter i s))
  | trap {fx : BitVec 4} {v : Byte} (hi : i = .trap fx v) :
      Effect i s (finishTrap (encode i) (trapUnit v (linked s)))
  | fault (hi : ∃ low, i = .rti low ∨ i = .reserved low) :
      Effect i s (faulted .reservedInstruction (encode i) s)

variable {i : Instr} {s t : State}

/-- BR writes the pc of R22's table, which is the one it found when it is not taken. -/
theorem exec_br_pcAfter (n z p : Bool) (off9 : BitVec 9) (s : State) :
    exec (.br n z p off9) s = .next (s.setPc (pcAfter (.br n z p off9) s)) := by
  simp only [pcAfter, ← branchTaken_iff]
  split
  case isTrue htaken => exact exec_br_taken htaken off9
  case isFalse hnot => exact exec_br_not_taken hnot off9

/-- The base that JSRR reads in the linked state is the pc of R22's table. -/
theorem linkR7_reg_eq_pcAfter (hi : BitVec 2) (base : Reg) (lo : BitVec 6) (s : State) :
    (linkR7 s).reg base = pcAfter (.jsrr hi base lo) s := by
  simp only [pcAfter]
  split
  case isTrue h => rw [h, linkR7_reg_r7]
  case isFalse h => exact linkR7_reg_other s h

theorem exec_effect_of_not_illegal (hlegal : ¬ Illegal i s) (h : exec i s = .next t) :
    Effect i s t := by
  have pass (u : State) : checkFixedBits i s u = u :=
    checkFixedBits_of_fixedOk (fixedOk_of_not_illegal hlegal) id u
  have checked {u : State} (e : exec i s = .next (checkFixedBits i s u)) : t = u :=
    Host.Outcome.next.inj (h.symm.trans (e.trans (congrArg Host.Outcome.next (pass u))))
  cases i with
  | addReg | andReg | not => rw [checked rfl]; exact .result _ rfl .rfl
  | addImm | andImm | lea => cases h; exact .result _ rfl .rfl
  | ld dr off9 => cases h; exact .result _ rfl (onlyTerminal_memRead _ s)
  | ldr dr base off6 => cases h; exact .result _ rfl (onlyTerminal_memRead _ s)
  | ldi dr off9 =>
    cases h
    exact .result _ rfl ((onlyTerminal_memRead _ s).trans (onlyTerminal_memRead _ _))
  | br n z p off9 =>
    cases h.symm.trans (exec_br_pcAfter n z p off9 s)
    exact .jump (.inl ⟨_, _, _, _, rfl⟩)
  | jmp hi base lo => rw [checked rfl]; exact .jump (.inr ⟨_, _, _, rfl⟩)
  | jsr off11 => cases h; exact .link (.inl ⟨_, rfl⟩)
  | jsrr hi base lo =>
    rw [checked rfl, linkR7_reg_eq_pcAfter hi base lo]
    exact .link (.inr ⟨_, _, _, rfl⟩)
  | st | str => cases h; exact .store rfl rfl .rfl
  | sti sr off9 =>
    cases h.symm.trans (exec_sti rfl)
    exact .store rfl rfl (onlyTerminal_memRead _ s)
  | trap fx v => rw [checked rfl]; exact .trap rfl
  | rti low => cases h; exact .fault ⟨low, .inl rfl⟩
  | reserved low => cases h; exact .fault ⟨low, .inr rfl⟩

/-- The fixed-bit check stops the instruction, or it has its effect (30_encoding R52). -/
theorem exec_effect (h : exec i s = .next t) :
    (Illegal i s ∧ t = faulted .illegalEncoding (encode i) s) ∨
      (¬ Illegal i s ∧ Effect i s t) := by
  by_cases hillegal : Illegal i s
  · exact .inl ⟨hillegal,
      Host.Outcome.next.inj (h.symm.trans (exec_illegal i s hillegal.1 hillegal.2))⟩
  · exact .inr ⟨hillegal, exec_effect_of_not_illegal hillegal h⟩

end Sys2Proof.Machine
end

section
/-! SUPPORT. The tables over all instructions: flags, registers, pc and cells (10_state R16, R19,
R22; 20_memory R30). -/

namespace Sys2Proof.Machine

open Sys2Proof.Spec

variable {i : Instr} {s t : State} {dr sr r : Reg} {a : Word}

/-- The seven flag setters write their DR and go on to the next instruction (R16, R22). -/
theorem writes_of_flagSource (h : flagSource i = some dr) : writes i dr := by
  cases i <;> cases h <;> rfl

theorem pcAfter_of_flagSource (h : flagSource i = some dr) : pcAfter i s = s.pc := by
  cases i <;> cases h <;> rfl

/-- The stores set no flags and go on to the next instruction (R19, R22). -/
theorem flagSource_of_storeSource (h : storeSource i = some sr) : flagSource i = none := by
  cases i <;> cases h <;> rfl

theorem pcAfter_of_storeSource (h : storeSource i = some sr) : pcAfter i s = s.pc := by
  cases i <;> cases h <;> rfl

theorem writeResult_reg_same (dr : Reg) (v : Word) (s : State) : (writeResult dr v s).reg dr = v :=
  RegFile.get_set_same ..

theorem writeResult_reg_other (v : Word) (s : State) (h : r ≠ dr) :
    (writeResult dr v s).reg r = s.reg r :=
  RegFile.get_set_other _ _ h

/-- Only the flag setters and IN write the flags, each from the register it writes. -/
theorem Effect.cond (h : Effect i s t) :
    (∃ dr, flagSource i = some dr ∧ t.cond = condOf (t.reg dr)) ∨
    (flagSource i = none ∧
      (t.cond = s.cond ∨ ((∃ fx, i = .trap fx 0x23) ∧ t.cond = condOf (t.reg .r0)))) := by
  cases h with
  | result v hdr hu =>
    exact .inl ⟨_, hdr, congrArg condOf (writeResult_reg_same _ v _).symm⟩
  | store hsr ha hu => exact .inr ⟨flagSource_of_storeSource hsr, .inl hu.cond⟩
  | jump hi => obtain ⟨_, _, _, _, rfl⟩ | ⟨_, _, _, rfl⟩ := hi <;> exact .inr ⟨rfl, .inl rfl⟩
  | link hi => obtain ⟨_, rfl⟩ | ⟨_, _, _, rfl⟩ := hi <;> exact .inr ⟨rfl, .inl rfl⟩
  | fault hi => obtain ⟨_, rfl | rfl⟩ := hi <;> exact .inr ⟨rfl, .inl rfl⟩
  | @trap fx v hi =>
    subst hi
    rw [finishTrap_cond, finishTrap_reg]
    refine .inr ⟨rfl, (trapUnit_frame v (linked s)).cond.imp_right ?_⟩
    rintro ⟨rfl, hcond⟩
    exact ⟨⟨fx, rfl⟩, hcond⟩

/-- Settles O47: the check writes no flag, and the effect writes those of its kind. -/
theorem flagsAreWrittenByTheSettersOnly : Obligations.FlagsAreWrittenByTheSettersOnly := by
  intro i s t h
  obtain ⟨hillegal, rfl⟩ | ⟨hlegal, heffect⟩ := exec_effect h
  · exact ⟨fun _ _ hlegal => absurd hillegal hlegal, fun _ _ => rfl, fun _ => rfl,
      fun _ _ => .inl rfl⟩
  · obtain ⟨dr, hdr, hcond⟩ | ⟨hnone, hcond⟩ := heffect.cond
    · rw [hdr]
      refine ⟨fun _ e _ => Option.some.inj e ▸ hcond, nofun, fun hi => absurd hi hlegal, ?_⟩
      rintro fx rfl
      cases hdr
    · rw [hnone]
      exact ⟨nofun,
        fun _ hin => hcond.resolve_right fun ⟨⟨fx, hi⟩, _⟩ => hin fx hi,
        fun hi => absurd hi hlegal, fun _ _ => hcond.imp_right And.right⟩

/-- A TRAP's registers: R7 by the link, R0 by GETC and IN (R16). -/
theorem trap_reg_of_not_writes {fx : BitVec 4} {v : Byte} (h : ¬ writes (.trap fx v) r)
    (w : Word) (s : State) : (finishTrap w (trapUnit v (linked s))).reg r = s.reg r := by
  have frame := trapUnit_frame v (linked s)
  obtain ⟨h7, h0⟩ : r ≠ .r7 ∧ ¬ (r = .r0 ∧ (v = 0x20 ∨ v = 0x23)) := not_or.mp h
  rw [finishTrap_reg, ← linkR7_reg_other s h7]
  by_cases hr : r = .r0
  · subst hr
    obtain ⟨hgetc, hin⟩ := not_or.mp fun hv => h0 ⟨rfl, hv⟩
    exact frame.r0 hgetc hin
  · exact frame.reg r hr

/-- Settles O49: the check writes no register, and the effect writes those of the table. -/
theorem registersChangeOnlyAsTheTableSays : Obligations.RegistersChangeOnlyAsTheTableSays := by
  intro i s t r h hr
  obtain ⟨-, rfl⟩ | ⟨-, heffect⟩ := exec_effect h
  · rfl
  cases heffect with
  | @result dr u v hdr hu =>
    have hne : r ≠ dr := fun e => hr (e ▸ writes_of_flagSource hdr)
    rw [writeResult_reg_other v u hne, State.reg, hu.x, State.reg]
  | store hsr ha hu => exact congrArg (RegFile.get · r) hu.x
  | jump => rfl
  | link hi =>
    obtain ⟨_, rfl⟩ | ⟨_, _, _, rfl⟩ := hi <;> exact linkR7_reg_other s hr
  | trap hi => subst hi; exact trap_reg_of_not_writes hr _ s
  | fault => rfl

/-- Settles O50: the check leaves the pc, and so does every effect but a jump's and a link's, which
is stated with the table's pc. -/
theorem pcAfterEachInstruction : Obligations.PcAfterEachInstruction := by
  intro i s t h
  obtain ⟨hillegal, rfl⟩ | ⟨hlegal, heffect⟩ := exec_effect h
  · exact ⟨fun hlegal => absurd hillegal hlegal, fun _ => rfl⟩
  refine ⟨fun _ => ?_, fun hillegal => absurd hillegal hlegal⟩
  cases heffect with
  | result v hdr hu => rw [pcAfter_of_flagSource hdr]; exact hu.pc
  | store hsr ha hu => rw [pcAfter_of_storeSource hsr]; exact hu.pc
  | jump | link => rfl
  | @trap fx v hi =>
    subst hi
    rw [finishTrap_pc, (trapUnit_frame v (linked s)).pc]
    rfl
  | fault hi => obtain ⟨_, rfl | rfl⟩ := hi <;> rfl

/-- What every instruction and every step keeps: the parameters, the output so far, the canonical
form of memory, and that no more is flushed than written. -/
structure Keeps (s t : State) : Prop where
  cfg : t.cfg = s.cfg
  out : s.term.out <+: t.term.out
  wf : s.mem.wf → t.mem.wf
  flushed : s.term.flushed ≤ s.term.out.length → t.term.flushed ≤ t.term.out.length

theorem Keeps.trans {u : State} (h : Keeps s t) (g : Keeps t u) : Keeps s u where
  cfg := g.cfg.trans h.cfg
  out := h.out.trans g.out
  wf := g.wf ∘ h.wf
  flushed := g.flushed ∘ h.flushed

theorem OnlyTerminal.keeps (h : OnlyTerminal s t) : Keeps s t :=
  ⟨h.cfg, h.out, h.wf, h.flushed⟩

theorem OnlyTerminal.keeps_memWrite {u : State} (h : OnlyTerminal s u) (a v : Word) :
    Keeps s (memWrite a v u) :=
  ⟨h.cfg, h.out, fun hm => memWrite_wf (h.wf hm) a v, h.flushed⟩

theorem TrapFrame.keeps_finishTrap {v : Byte} {r : TrapResult × State} (h : TrapFrame v s r.2)
    (w : Word) : Keeps s (finishTrap w r) where
  cfg := (finishTrap_cfg w r).trans h.cfg
  out := finishTrap_term w r ▸ h.out
  wf := finishTrap_mem w r ▸ h.wf
  flushed := finishTrap_term w r ▸ h.flushed

theorem exec_keeps (h : exec i s = .next t) : Keeps s t := by
  obtain ⟨-, rfl⟩ | ⟨-, heffect⟩ := exec_effect h
  · exact ⟨rfl, List.prefix_refl _, id, id⟩
  cases heffect with
  | result v hdr hu => exact ⟨hu.cfg, hu.out, hu.wf, hu.flushed⟩
  | store hsr ha hu => exact hu.keeps_memWrite _ _
  | jump | link | fault => exact ⟨rfl, List.prefix_refl _, id, id⟩
  | @trap fx v hi =>
    have hkeeps := (trapUnit_frame v (linked s)).keeps_finishTrap (encode i)
    exact ⟨hkeeps.cfg, hkeeps.out, hkeeps.wf, hkeeps.flushed⟩

/-- The run state changes by a fault or by HALT only. -/
theorem exec_run (h : exec i s = .next t) :
    t.run = s.run ∨ (∃ r, t.run = .faulted r) ∨ (t.run = .halted ∧ ∃ fx, i = .trap fx 0x25) := by
  obtain h | h | h | ⟨fx, v, rfl, rfl⟩ := exec_run_cases h
  · exact .inl h
  · exact .inr (.inl ⟨_, h⟩)
  · exact .inr (.inl ⟨_, h⟩)
  · obtain h | ⟨rfl, h⟩ | ⟨-, h⟩ | ⟨-, h⟩ :=
      finishTrap_run_cases (encode (.trap fx v)) v (linked s)
    · exact .inl h
    · exact .inr (.inr ⟨h, fx, rfl⟩)
    · exact .inr (.inl ⟨_, h⟩)
    · exact .inr (.inl ⟨_, h⟩)

/-- An ordinary cell changes by a store to it only (20_memory R30). -/
theorem exec_cell (h : exec i s = .next t) (hstatus : a ≠ kbsr) (hdata : a ≠ kbdr)
    (hstore : storeAddress i s ≠ some a) : t.mem.read a = s.mem.read a := by
  obtain ⟨-, rfl⟩ | ⟨-, heffect⟩ := exec_effect h
  · rfl
  cases heffect with
  | result v hdr hu => exact hu.cell a hstatus hdata
  | @store sr b u hsr hb hu =>
    have hne : a ≠ b := fun e => hstore (e ▸ hb)
    exact (read_memWrite_other u _ hne).trans (hu.cell a hstatus hdata)
  | jump | link | fault => rfl
  | @trap fx v hi =>
    rw [finishTrap_mem]
    exact (trapUnit_frame v (linked s)).cell a hstatus hdata

/-- A cell that none of the three stores stores to. -/
theorem storeAddress_ne (hst : ∀ sr off9, i = .st sr off9 → a ≠ pcRel9 off9 s)
    (hsti : ∀ sr off9, i = .sti sr off9 → a ≠ (memRead (pcRel9 off9 s) s).1)
    (hstr : ∀ sr base off6, i = .str sr base off6 → a ≠ baseOff6 base off6 s) :
    storeAddress i s ≠ some a := by
  intro h
  cases i with
  | st sr off9 => exact hst sr off9 rfl (Option.some.inj h).symm
  | sti sr off9 => exact hsti sr off9 rfl (Option.some.inj h).symm
  | str sr base off6 => exact hstr sr base off6 rfl (Option.some.inj h).symm
  | _ => cases h

/-- Settles O51: what every instruction keeps, how the run state changes, and the cells. -/
theorem onlyStoresChangeOrdinaryCells : Obligations.OnlyStoresChangeOrdinaryCells :=
  fun _ _ _ h => ⟨(exec_keeps h).cfg, (exec_keeps h).out, exec_run h,
    fun _ hstatus hdata hst hsti hstr =>
      exec_cell h hstatus hdata (storeAddress_ne hst hsti hstr)⟩

end Sys2Proof.Machine
end

section
/-! SUPPORT. The invariant of the state between two steps (20_memory R28; 43_trap R80, R81;
60_exceptions R92, R94). -/

namespace Sys2Proof.Machine

open Sys2Proof.Spec

variable {i : Instr} {s t : State} {b : Busy} {k : TrapWork} {v : Byte} {r : FaultRecord}

theorem fetch_run (s : State) : (fetch s).2.run = s.run := memRead_run s.pc s

theorem fetch_busy (s : State) : (fetch s).2.busy = s.busy := memRead_busy s.pc s

theorem fetch_keeps (s : State) : Keeps s (fetch s).2 := by
  have hread := (onlyTerminal_memRead s.pc s).keeps
  exact ⟨hread.cfg, hread.out, hread.wf, hread.flushed⟩

/-- A step keeps what its instructions and its TRAPs keep. -/
theorem step_keeps (h : step s = .next t) : Keeps s t := by
  obtain ⟨-, ⟨b, -, rfl⟩ | ⟨-, hexec⟩⟩ := step_cases h
  · exact (continueWork_frame b.work s).keeps_finishTrap b.word
  · exact (fetch_keeps s).trans (exec_keeps hexec)

/-- Settles O55: the parameters and the output are among what a step keeps. -/
theorem stepsKeepParametersAndOutput : Obligations.StepsKeepParametersAndOutput :=
  fun _ _ h => ⟨(step_keeps h).cfg, (step_keeps h).out⟩

/-- The unfinished work fits its word when the word is a TRAP of the work's vector. -/
theorem workFits_iff :
    workFits b ↔ opcodeOf b.word = 0b1111#4 ∧ vectorOf b.word = b.work.vector := by
  obtain ⟨w, k⟩ := b
  cases k <;> rfl

theorem opcodeOf_encode_trap (fx : BitVec 4) (v : Byte) :
    opcodeOf (encode (.trap fx v)) = 0b1111#4 :=
  (opcodeOf_encode_eq_trap _).mpr ⟨fx, v, rfl⟩

theorem TrapWork.vector_known (k : TrapWork) : KnownVector k.vector := by
  cases k <;> simp [TrapWork.vector, KnownVector]

/-- A routine that goes on has the same work to go on with. -/
theorem continueWork_unfinished {k' : TrapWork} (h : (continueWork k s).1 = .unfinished k') :
    k' = k := by
  obtain ⟨_, -, e | e | ⟨_, -, e⟩ | ⟨_, -, e⟩ | ⟨_, -, e⟩⟩ := continueWork_cases k s <;>
    rw [e] at h <;> cases h
  rfl

theorem routineOf_eq_puts : routineOf v = some .puts ↔ v = 0x22 := by
  revert v; decide +kernel

theorem routineOf_eq_putsp : routineOf v = some .putsp ↔ v = 0x24 := by
  revert v; decide +kernel

/-- The work that a routine leaves unfinished is its own (43_trap R81). -/
theorem trapUnit_unfinished_vector (h : (trapUnit v s).1 = .unfinished k) : k.vector = v := by
  unfold trapUnit at h
  split at h <;> rename_i hv
  · rw [continueWork_unfinished h, routineOf_eq_getc.mp hv]; rfl
  · unfold outRoutine at h; split at h <;> cases h
  · rw [continueWork_unfinished h, routineOf_eq_puts.mp hv]; rfl
  · unfold inRoutine at h
    split at h
    · cases h
    · rw [continueWork_unfinished h, routineOf_eq_inp.mp hv]; rfl
  · rw [continueWork_unfinished h, routineOf_eq_putsp.mp hv]; rfl
  · unfold haltRoutine at h; split at h <;> cases h
  · cases h

/-- A TRAP's ending leaves a TRAP in progress only when the routine has not returned, and then the
run state is the routine's. -/
theorem finishTrap_busy {w : Word} {a : TrapResult × State} (h : (finishTrap w a).busy = some b) :
    ∃ k, a.1 = .unfinished k ∧ b = ⟨w, k⟩ ∧ (finishTrap w a).run = a.2.run := by
  obtain ⟨result, u⟩ := a
  cases result <;> cases h
  exact ⟨_, rfl, rfl, rfl⟩

/-- A TRAP that an instruction leaves in progress is that instruction, linked, and the routine its
word names. -/
theorem exec_busy (hbusy : s.busy = none) (hexec : exec i s = .next t) (h : t.busy = some b) :
    t.run = s.run ∧ t.reg .r7 = t.pc ∧ workFits b := by
  have absurd_of {p : Prop} (e : t.busy = s.busy) : p := by
    cases hbusy.symm.trans (e.symm.trans h)
  obtain ⟨-, rfl⟩ | ⟨-, heffect⟩ := exec_effect hexec
  · exact absurd_of rfl
  cases heffect with
  | result v hdr hu => exact absurd_of hu.busy
  | store hsr ha hu => exact absurd_of hu.busy
  | jump | link | fault => exact absurd_of rfl
  | @trap fx v hi =>
    subst hi
    have frame := trapUnit_frame v (linked s)
    obtain ⟨k, hk, rfl, hrun⟩ := finishTrap_busy h
    refine ⟨hrun.trans frame.run, ?_, workFits_iff.mpr ⟨opcodeOf_encode_trap fx v, ?_⟩⟩
    · rw [finishTrap_reg, finishTrap_pc, frame.reg .r7 (by decide), frame.pc]
      exact linkR7_reg_r7 s
    · exact (vectorOf_encode_trap fx v).trans (trapUnit_unfinished_vector hk).symm

/-- The record of an instruction's fault names the instruction before the pc and fits its kind. -/
theorem exec_fault_fits (hrun : s.run = .running) (hexec : exec i s = .next t)
    (hfault : t.run = .faulted r) : r.pc = t.pc - 1 ∧ recordFits t.cfg r := by
  obtain ⟨k, rfl, hpc⟩ := exec_fault_record hrun hexec hfault
  refine ⟨by rw [hpc], ?_⟩
  rw [(exec_keeps hexec).cfg]
  obtain ⟨hillegal, rfl⟩ | ⟨⟨low, rfl | rfl⟩, rfl⟩ | ⟨-, fx, v, rfl, ⟨hv, rfl⟩ | ⟨hv, u, -, rfl⟩⟩ :=
    exec_faulted_cases hrun hexec hfault <;>
      cases congrArg FaultRecord.kind (RunState.faulted.inj hfault)
  · exact ⟨hillegal.1, (congrArg Instr.wellFormed (decode_encode i)).trans hillegal.2⟩
  · exact .inl ((congrArg opcodeOf (faultOpcode_bitString _ low)).trans (opcodeOf_append _ low))
  · exact .inr ((congrArg opcodeOf (faultOpcode_bitString _ low)).trans (opcodeOf_append _ low))
  · exact ⟨opcodeOf_encode_trap fx v, (vectorOf_encode_trap fx v).symm ▸ hv⟩
  · exact ⟨opcodeOf_encode_trap fx v, (vectorOf_encode_trap fx v).symm ▸ hv⟩

/-- A TRAP that a step leaves in progress: the one before, which the step went on with, or a new
one. -/
theorem step_busy_of_inv (hinv : Inv s) (h : step s = .next t) (hb : t.busy = some b) :
    t.run = .running ∧ t.reg .r7 = t.pc ∧ workFits b := by
  obtain ⟨hrun, ⟨b₀, hb₀, rfl⟩ | ⟨hnone, hexec⟩⟩ := step_cases h
  · have frame := continueWork_frame b₀.work s
    obtain ⟨-, hlink, hfits⟩ := hinv.busy b₀ hb₀
    obtain ⟨k, hk, rfl, hrun'⟩ := finishTrap_busy hb
    refine ⟨hrun'.trans (frame.run.trans hrun), ?_, continueWork_unfinished hk ▸ hfits⟩
    rw [resumeTrap, finishTrap_reg, finishTrap_pc, frame.reg .r7 (by decide), frame.pc, hlink]
  · obtain ⟨hrun', hlink, hfits⟩ := exec_busy ((fetch_busy s).trans hnone) hexec hb
    exact ⟨hrun'.trans ((fetch_run s).trans hrun), hlink, hfits⟩

/-- A fault that a step raises: the terminal's, in a TRAP it went on with, or a new
instruction's. -/
theorem step_fault_of_inv (hinv : Inv s) (h : step s = .next t) (hr : t.run = .faulted r) :
    r.pc = t.pc - 1 ∧ recordFits t.cfg r := by
  obtain ⟨hrun, ⟨b, hb, rfl⟩ | ⟨hnone, hexec⟩⟩ := step_cases h
  · obtain ⟨-, -, hfits⟩ := hinv.busy b hb
    obtain ⟨hopcode, hvector⟩ := workFits_iff.mp hfits
    obtain ⟨hrun', -⟩ | ⟨hfault, -⟩ := resumed_run_cases hrun b
    · cases hrun'.symm.trans hr
    · cases hfault.symm.trans hr
      rw [resumeTrap, finishTrap_pc, (continueWork_frame b.work s).pc]
      exact ⟨rfl, hopcode, hvector.symm ▸ b.work.vector_known⟩
  · exact exec_fault_fits ((fetch_run s).trans hrun) hexec hr

/-- Settles O53: the memory and the flush are among what a step keeps; the TRAP in progress and the
fault record are traced to the instruction that made them. -/
theorem everyStepKeepsTheInvariant : Obligations.EveryStepKeepsTheInvariant := fun _ _ hinv h =>
  ⟨(step_keeps h).wf hinv.memory, fun _ => step_busy_of_inv hinv h,
    fun _ => step_fault_of_inv hinv h, (step_keeps h).flushed hinv.flushed⟩

/-- Settles O54: a run starts Running with no TRAP in progress, so only the memory and the flush are
left to check. -/
theorem runStartMeetsTheInvariant : Obligations.RunStartMeetsTheInvariant := by
  have start (cfg : Config) (term : Terminal) (mem : Memory) (hm : mem.wf)
      (hf : term.flushed ≤ term.out.length) : Inv (State.start cfg term mem) :=
    ⟨hm, nofun, nofun, hf⟩
  exact ⟨start, start _ _ [] ⟨.nil, nofun⟩ (Nat.zero_le _)⟩

end Sys2Proof.Machine
end

section
/-! SUPPORT. Registers read back (10_state R15), and the arithmetic of ADD and NOT (40_operate
R60). -/

namespace Sys2Proof.Machine

open Sys2Proof.Spec

variable {v : Word}

/-- Settles O8: the register written, and the seven others. -/
theorem registersReadBackWhatWasWritten : Obligations.RegistersReadBackWhatWasWritten := by
  intro x i j v
  split
  case isTrue h => rw [h, RegFile.get_set_same]
  case isFalse h => rw [RegFile.get_set_other x v h]

theorem result_reg_same (dr : Reg) (v : Word) (s : State) : (result dr v s).reg dr = v :=
  RegFile.get_set_same ..

theorem result_reg_other {a dr : Reg} (h : a ≠ dr) (v : Word) (s : State) :
    (result dr v s).reg a = s.reg a :=
  RegFile.get_set_other _ _ h

/-- N says that the value, read as unsigned, is in the upper half. -/
theorem condOf_eq_N_iff : condOf v = .N ↔ 0x8000 ≤ v.toNat := by
  have hmsb : v.msb = v.getLsbD 15 := BitVec.msb_eq_getLsbD_last v
  rw [(condOf_iffs v).1, ← hmsb, BitVec.msb_eq_decide, decide_eq_true_iff]

/-- Z says that the value is 0, whose bit 15 is clear. -/
theorem condOf_eq_Z_iff : condOf v = .Z ↔ v.toNat = 0 := by
  rw [(condOf_iffs v).2.1]
  refine ⟨fun ⟨_, hzero⟩ => congrArg BitVec.toNat hzero, fun h => ?_⟩
  obtain rfl : v = 0x0000 := BitVec.eq_of_toNat_eq h
  exact ⟨rfl, rfl⟩

/-- Settles O17: the sum of words is the sum of either reading, and a complement plus one is a
negation, added to a register that the first two instructions leave. -/
theorem sumsWrapAndSubtractionIsNotAddAdd : Obligations.SumsWrapAndSubtractionIsNotAddAdd := by
  obtain ⟨-, -, hadd⟩ := addWritesTheSum
  obtain ⟨-, hnot⟩ := notWritesTheComplement
  refine ⟨fun s dr sr1 sr2 => ?_, fun s dr a b ha => ?_⟩
  · refine ⟨_, (hadd s dr sr1).1 _ sr2 (.inr rfl), rfl, ?_⟩
    rw [result_reg_same]
    exact ⟨BitVec.toNat_add .., BitVec.toInt_add .., condOf_eq_N_iff, condOf_eq_Z_iff⟩
  · refine ⟨_, _, _, (hnot s dr b _).1 (.inr rfl), (hadd _ dr dr).2.1 1,
      (hadd _ dr a).1 _ dr (.inr rfl), ?_⟩
    have hone : sext (1 : BitVec 5) = 1#16 := by decide
    simp only [result_reg_same, result_reg_other ha, hone]
    rw [← BitVec.neg_eq_not_add, ← BitVec.sub_eq_add_neg]

end Sys2Proof.Machine
end

section
/-! SUPPORT. GETC, and the TRAP that waits (43_trap R82, R85, R89). -/

namespace Sys2Proof.Machine

open Sys2Proof.Spec

variable {s u : State} {fx : BitVec 4} {v : Byte} {k : TrapWork}

/-- Settles O30: the read's answer, on the linked state. -/
theorem getcReadsOneCharacter : Obligations.GetcReadsOneCharacter := fun s _ h =>
  ⟨fun _ _ hread => exec_trap_ok h ((trapUnit_getc _).trans (getcRead_byte (s := linked s) hread)),
    fun _ hread =>
      exec_trap_fault h ((trapUnit_getc _).trans (getcRead_ioError (s := linked s) hread))⟩

theorem exec_trap_unfinished (h : FixedOk s (fx = 0b0000#4))
    (hu : trapUnit v (linked s) = (.unfinished k, u)) :
    exec (.trap fx v) s = .next { u with busy := some ⟨encode (.trap fx v), k⟩ } := by
  rw [exec_trap_of_fixedOk h, hu]; rfl

/-- Settles O45: the routine's answer "not returned", GETC's and IN's among them, and the three
cases of a step. -/
theorem stepOfAWaitingOrStoppedBlock : Obligations.StepOfAWaitingOrStoppedBlock := by
  refine ⟨fun _ _ _ _ _ => exec_trap_unfinished, fun s fx h hread => ⟨?_, fun hprompt => ?_⟩,
    fun s => ⟨fun _ => step_resumed, fun hrun => ?_, fun r hrun => ?_⟩⟩
  · exact exec_trap_unfinished h
      ((trapUnit_getc _).trans (getcRead_unanswered (s := linked s) hread))
  · have hprompted := inRoutine_prompted (s := linked s) hprompt
    exact exec_trap_unfinished h
      ((trapUnit_in _).trans (hprompted.trans (inRead_unanswered hread)))
  · simp only [step, hrun]
  · simp only [step, hrun]

end Sys2Proof.Machine
end

section
/-! SUPPORT. How a run goes on and how it ends (70_reset R107). -/

namespace Sys2Proof.Machine

variable {s t u : State} {n m k : Nat}

/-- The steps of a run are one function's, so a number of steps reaches one state. -/
theorem Reaches.unique (h : Reaches n s t) (g : Reaches n s u) : t = u :=
  Host.Outcome.next.inj (h.symm.trans g)

theorem reaches_zero_iff : Reaches 0 s t ↔ s = t :=
  ⟨Host.Outcome.next.inj, congrArg Host.Outcome.next⟩

theorem reaches_succ_iff : Reaches (n + 1) s u ↔ ∃ t, step s = .next t ∧ Reaches n t u := by
  simp only [Reaches, Host.Core.run, Host.Check.core_step]
  cases step s <;> simp

/-- The first steps of a run, and the rest. -/
theorem reaches_add_iff : Reaches (n + m) s u ↔ ∃ t, Reaches n s t ∧ Reaches m t u := by
  induction n generalizing s with
  | zero => simp [reaches_zero_iff]
  | succ n ih =>
    rw [Nat.add_right_comm]
    simp only [reaches_succ_iff, ih]
    tauto

/-- A block that is not Running has no step (30_encoding R45). -/
theorem reaches_of_stopped (hstop : t.run ≠ .running) (h : Reaches k t u) : k = 0 ∧ t = u := by
  cases k with
  | zero => exact ⟨rfl, reaches_zero_iff.mp h⟩
  | succ k =>
    obtain ⟨_, hstep, -⟩ := reaches_succ_iff.mp h
    exact absurd (step_cases hstep).1 hstop

/-- Two stopped states of a run are one, reached once. -/
theorem Reaches.stopped_unique (h : Reaches n s t) (ht : t.run ≠ .running) (g : Reaches m s u)
    (hu : u.run ≠ .running) : n = m ∧ t = u := by
  wlog hnm : n ≤ m generalizing n m t u
  · exact (this g hu h ht (Nat.le_of_not_le hnm)).imp Eq.symm Eq.symm
  obtain ⟨k, rfl⟩ := Nat.exists_eq_add_of_le hnm
  obtain ⟨t', ht', hrest⟩ := reaches_add_iff.mp g
  cases h.unique ht'
  obtain ⟨rfl, rfl⟩ := reaches_of_stopped ht hrest
  exact ⟨rfl, rfl⟩

theorem EndsHalted.stopped (h : EndsHalted n s t) : t.run ≠ .running := by
  rw [h.2]; nofun

theorem EndsFaulted.stopped {r : FaultRecord} (h : EndsFaulted n s t r) : t.run ≠ .running := by
  rw [h.2]; nofun

/-- Settles O59: every end of a run is a stopped state of it, and a run that never ends has
none. -/
theorem runEndsInAtMostOneWay : Obligations.RunEndsInAtMostOneWay := by
  refine fun s => ⟨fun n m t u h g => ?_, fun n m t u r r' h g => ?_, fun n m t u r h g => ?_,
    fun hnever n t => ?_⟩
  · exact h.1.stopped_unique h.stopped g.1 g.stopped
  · obtain ⟨rfl, rfl⟩ := h.1.stopped_unique h.stopped g.1 g.stopped
    exact ⟨rfl, rfl, RunState.faulted.inj (h.2.symm.trans g.2)⟩
  · obtain ⟨rfl, rfl⟩ := h.1.stopped_unique h.stopped g.1 g.stopped
    cases h.2.symm.trans g.2
  · obtain ⟨t', ht', hrun⟩ := hnever n
    exact ⟨fun h => h.stopped (h.1.unique ht' ▸ hrun), fun r h => h.stopped (h.1.unique ht' ▸ hrun)⟩

end Sys2Proof.Machine
end

section
/-! SUPPORT. The loop of PUTS and PUTSP over several steps, and the loops of R84 and R86 (43_trap;
log 9). -/

namespace Sys2Proof.Machine

open Sys2Proof.Spec

variable {emit : Word → List Byte × Bool} {rest : Word → TrapWork} {n : Nat} {a w : Word}
  {s t : State} {r : TrapResult}

/-- The routine has returned: its answer is not that it goes on. -/
def Returned (r : TrapResult) : Prop := ∀ k, r ≠ .unfinished k

theorem returned_ok : Returned .ok := nofun

theorem returned_fault (k : FaultKind) : Returned (.fault k) := nofun

/-! ### One word of the loop -/

theorem stringLoop_error (h : writeChars (emit (memRead a s).1).1 (memRead a s).2 = (false, t)) :
    stringLoop emit rest (n + 1) a s = (.fault .terminalIOError, t) := by
  simp only [stringLoop, h]

theorem stringLoop_end (h : writeChars (emit (memRead a s).1).1 (memRead a s).2 = (true, t))
    (hend : (emit (memRead a s).1).2 = true) : stringLoop emit rest (n + 1) a s = (.ok, t) := by
  simp only [stringLoop, h, hend, if_true]

theorem stringLoop_next (h : writeChars (emit (memRead a s).1).1 (memRead a s).2 = (true, t))
    (hend : (emit (memRead a s).1).2 = false) :
    stringLoop emit rest (n + 1) a s = stringLoop emit rest n (a + 1) t := by
  simp only [stringLoop, h, hend, Bool.false_eq_true, if_false]

/-- A loop that answers, word by word, as the model's does answers what the model's has when that
returns. -/
theorem loop_of_stringLoop {loop : Word → State → TrapResult → State → Prop}
    (herror : ∀ a s t, writeChars (emit (memRead a s).1).1 (memRead a s).2 = (false, t) →
      loop a s (.fault .terminalIOError) t)
    (hend : ∀ a s t, writeChars (emit (memRead a s).1).1 (memRead a s).2 = (true, t) →
      (emit (memRead a s).1).2 = true → loop a s .ok t)
    (hnext : ∀ a s t r u, writeChars (emit (memRead a s).1).1 (memRead a s).2 = (true, t) →
      (emit (memRead a s).1).2 = false → loop (a + 1) t r u → loop a s r u)
    (h : Returned (stringLoop emit rest n a s).1) :
    loop a s (stringLoop emit rest n a s).1 (stringLoop emit rest n a s).2 := by
  induction n generalizing a s with
  | zero => exact absurd rfl (h (rest a))
  | succ n ih =>
    match hw : writeChars (emit (memRead a s).1).1 (memRead a s).2 with
    | (false, t) =>
      rw [stringLoop_error hw]
      exact herror a s t hw
    | (true, t) =>
      cases hlast : (emit (memRead a s).1).2 with
      | true =>
        rw [stringLoop_end hw hlast]
        exact hend a s t hw hlast
      | false =>
        rw [stringLoop_next hw hlast] at h ⊢
        exact hnext a s t _ _ hw hlast (ih h)

/-! ### R84 -/

theorem putsEmit_zero : putsEmit 0 = ([], true) := rfl

theorem putsEmit_of_ne_zero (h : w ≠ 0) : putsEmit w = ([lowByte w], false) := if_neg h

theorem writeChars_singleton_eq_false {b : Byte} :
    writeChars [b] s = (false, t) ↔ writeChar b s = none ∧ t = s := by
  cases h : writeChar b s <;> simp [writeChars, h, eq_comm]

theorem writeChars_singleton_eq_true {b : Byte} :
    writeChars [b] s = (true, t) ↔ writeChar b s = some t := by
  cases h : writeChar b s <;> simp [writeChars, h]

/-- Each way in which the model's loop takes a word is a rule of R84's, by whether the word is 0. -/
theorem putsLoop_of_stringLoop (h : Returned (stringLoop putsEmit rest n a s).1) :
    PutsLoop a s (stringLoop putsEmit rest n a s).1 (stringLoop putsEmit rest n a s).2 := by
  refine loop_of_stringLoop (fun a s t hw => ?_) (fun a s t hw hlast => ?_)
    (fun a s t r u hw hlast hrest => ?_) h
  all_goals by_cases hz : (memRead a s).1 = 0
  · rw [hz, putsEmit_zero] at hw; cases hw
  · rw [putsEmit_of_ne_zero hz, writeChars_singleton_eq_false] at hw
    obtain ⟨hrefused, rfl⟩ := hw
    exact .error hz hrefused
  · rw [hz, putsEmit_zero] at hw; cases hw; exact .zero hz
  · rw [putsEmit_of_ne_zero hz] at hlast; cases hlast
  · rw [hz, putsEmit_zero] at hlast; cases hlast
  · rw [putsEmit_of_ne_zero hz, writeChars_singleton_eq_true] at hw
    exact .next hz hw hrest

theorem stringLoop_of_putsLoop (h : PutsLoop a s r t) :
    ∃ n, Returned (stringLoop putsEmit rest n a s).1 := by
  induction h with
  | zero hz =>
    refine ⟨1, ?_⟩
    rw [stringLoop_end (by rw [hz]; rfl) (by rw [hz]; rfl)]
    exact returned_ok
  | error hz hc =>
    have hw := writeChars_singleton_eq_false.mpr ⟨hc, rfl⟩
    refine ⟨1, ?_⟩
    rw [stringLoop_error (by rw [putsEmit_of_ne_zero hz, hw])]
    exact returned_fault _
  | next hz hc _ ih =>
    have hw := writeChars_singleton_eq_true.mpr hc
    obtain ⟨n, hn⟩ := ih
    refine ⟨n + 1, ?_⟩
    rwa [stringLoop_next (by rw [putsEmit_of_ne_zero hz, hw]) (by rw [putsEmit_of_ne_zero hz])]

/-! ### R86 -/

theorem putspEmit_fst (stop : PutspStop) (w : Word) : (putspEmit stop w).1 = putspBytes stop w := by
  cases stop with
  | zeroWord => simp only [putspEmit, putspBytes, ne_eq, ite_not]; split_ifs <;> rfl
  | zeroByte => simp only [putspEmit, putspBytes]; split_ifs <;> rfl

theorem putspEmit_snd (stop : PutspStop) (w : Word) :
    (putspEmit stop w).2 = true ↔ PutspEnds stop w := by
  cases stop with
  | zeroWord => simp only [putspEmit, PutspEnds]; split_ifs <;> simp_all
  | zeroByte => simp only [putspEmit, PutspEnds]; split_ifs <;> simp_all

theorem putspEmit_snd_false (stop : PutspStop) (w : Word) :
    (putspEmit stop w).2 = false ↔ ¬ PutspEnds stop w := by
  rw [← putspEmit_snd, Bool.not_eq_true]

theorem putspLoop_of_stringLoop {stop : PutspStop}
    (h : Returned (stringLoop (putspEmit stop) rest n a s).1) :
    PutspLoop stop a s (stringLoop (putspEmit stop) rest n a s).1
      (stringLoop (putspEmit stop) rest n a s).2 :=
  loop_of_stringLoop (fun _ _ _ hw => .error (putspEmit_fst stop _ ▸ hw))
    (fun _ _ _ hw hlast => .ends ((putspEmit_snd stop _).mp hlast) (putspEmit_fst stop _ ▸ hw))
    (fun _ _ _ _ _ hw hlast hrest =>
      .next ((putspEmit_snd_false stop _).mp hlast) (putspEmit_fst stop _ ▸ hw) hrest) h

theorem stringLoop_of_putspLoop {stop : PutspStop} (h : PutspLoop stop a s r t) :
    ∃ n, Returned (stringLoop (putspEmit stop) rest n a s).1 := by
  induction h with
  | ends hlast hw =>
    refine ⟨1, ?_⟩
    rw [stringLoop_end ((putspEmit_fst stop _).symm ▸ hw) ((putspEmit_snd stop _).mpr hlast)]
    exact returned_ok
  | error hw =>
    refine ⟨1, ?_⟩
    rw [stringLoop_error ((putspEmit_fst stop _).symm ▸ hw)]
    exact returned_fault _
  | next hlast hw _ ih =>
    obtain ⟨n, hn⟩ := ih
    refine ⟨n + 1, ?_⟩
    rwa [stringLoop_next ((putspEmit_fst stop _).symm ▸ hw)
      ((putspEmit_snd_false stop _).mpr hlast)]

/-! ### Laps and steps

`l` is the number of words that a step reads. All that matters of it is that so many words further
on stands the same address (`hl`), and that it is not 0. -/

/-- A whole number of laps comes back to the address. -/
theorem add_ofNat_laps (a : Word) (n : Nat) : a + BitVec.ofNat 16 (n * lap) = a := by
  have hzero : BitVec.ofNat 16 (n * lap) = 0#16 :=
    BitVec.eq_of_toNat_eq ((BitVec.toNat_ofNat ..).trans (Nat.mul_mod_left n _))
  rw [hzero, BitVec.add_zero]

/-- A loop that has returned has returned for good. -/
theorem stringLoop_add_of_returned (h : Returned (stringLoop emit rest n a s).1) (m : Nat) :
    stringLoop emit rest (n + m) a s = stringLoop emit rest n a s := by
  rw [stringLoop_add]
  split
  case h_1 e => exact absurd (congrArg Prod.fst e) (h _)
  case h_2 => rfl

/-- The ending overwrites `busy`. -/
theorem finishTrap_setBusy (w : Word) (b : Option Busy) (x : TrapResult × State) :
    finishTrap w (x.1, x.2.setBusy b) = finishTrap w x := by
  obtain ⟨result, u⟩ := x
  cases result <;> rfl

/-- `rest a` names the loop from `a` on over `l` words, in every state with the parameters of
`s`. -/
def GoesOn (emit : Word → List Byte × Bool) (rest : Word → TrapWork) (l : Nat) (a : Word)
    (s : State) : Prop :=
  ∀ u : State, u.cfg = s.cfg → continueWork (rest a) u = stringLoop emit rest l a u

section

variable {l : Nat} (hl : ∀ (a : Word) (n : Nat), a + BitVec.ofNat 16 (n * l) = a)

include hl

/-- A loop that has not returned after some laps is at its address again. -/
theorem stringLoop_open (h : ¬ Returned (stringLoop emit rest (n * l) a s).1) :
    stringLoop emit rest (n * l) a s =
      (.unfinished (rest a), (stringLoop emit rest (n * l) a s).2) := by
  obtain e | e | e := stringLoop_result emit rest (n * l) a s
  · exact absurd (e ▸ returned_ok) h
  · exact absurd (e ▸ returned_fault _) h
  · rw [hl] at e
    exact Prod.ext e rfl

/-- A loop that has not returned goes on for one lap more. -/
theorem stringLoop_lap (h : stringLoop emit rest (n * l) a s = (.unfinished (rest a), t)) :
    stringLoop emit rest ((n + 1) * l) a s = stringLoop emit rest l a t := by
  rw [Nat.succ_mul, stringLoop_add, h]
  simp only [hl]

/-- A step of a TRAP whose loop has not returned is the next lap. -/
theorem step_lap (hrun : s.run = .running) (hwork : GoesOn emit rest l a s) (w : Word)
    (h : ¬ Returned (stringLoop emit rest (n * l) a s).1) :
    step (finishTrap w (stringLoop emit rest (n * l) a s)) =
      .next (finishTrap w (stringLoop emit rest ((n + 1) * l) a s)) := by
  have hu := onlyTerminal_stringLoop emit rest (n * l) a s
  have hopen := stringLoop_open hl h
  rw [stringLoop_lap hl hopen, hopen, finishTrap_unfinished]
  generalize (stringLoop emit rest (n * l) a s).2 = u at hu ⊢
  have hbusy : (u.setBusy (some ⟨w, rest a⟩)).run = .running := hu.run.trans hrun
  have hnext : continueWork (rest a) (u.setBusy (some ⟨w, rest a⟩)) =
      stringLoop emit rest l a (u.setBusy (some ⟨w, rest a⟩)) := hwork _ hu.cfg
  rw [step_resumed hbusy rfl, hnext, stringLoop_setBusy, finishTrap_setBusy]

/-- While the loop has not returned, each step is a lap. -/
theorem reaches_lap (hrun : s.run = .running) (hwork : GoesOn emit rest l a s) (w : Word)
    (h : ∀ m < n, ¬ Returned (stringLoop emit rest ((m + 1) * l) a s).1) :
    Reaches n (finishTrap w (stringLoop emit rest l a s))
      (finishTrap w (stringLoop emit rest ((n + 1) * l) a s)) := by
  induction n with
  | zero => rw [Nat.zero_add, Nat.one_mul]; exact reaches_zero_iff.mpr rfl
  | succ n ih =>
    refine reaches_add_iff.mpr ⟨_, ih fun m hm => h m (Nat.lt_succ_of_lt hm), ?_⟩
    exact reaches_succ_iff.mpr
      ⟨_, step_lap hl hrun hwork w (h n (Nat.lt_succ_self n)), reaches_zero_iff.mpr rfl⟩

/-- A run whose loop never returns is inside the TRAP after every number of steps. -/
theorem reaches_busy (hrun : s.run = .running) (hwork : GoesOn emit rest l a s) (w : Word)
    (h : ∀ m, ¬ Returned (stringLoop emit rest ((m + 1) * l) a s).1) (n : Nat) :
    ∃ v, Reaches n (finishTrap w (stringLoop emit rest l a s)) v ∧ v.run = .running ∧
      ∃ k, v.busy = some ⟨w, k⟩ := by
  refine ⟨_, reaches_lap hl hrun hwork w fun m _ => h m, ?_⟩
  rw [stringLoop_open hl (h n), finishTrap_unfinished]
  exact ⟨(onlyTerminal_stringLoop emit rest ((n + 1) * l) a s).run.trans hrun, _, rfl⟩

/-- The run of a string routine is its loop, when the loop is what the model's returns. -/
theorem runsLoop_of_stringLoop {loop : TrapResult → State → Prop} (hpos : 0 < l)
    (hrun : s.run = .running) (hwork : GoesOn emit rest l a s) (w : Word)
    (hsound : ∀ n, Returned (stringLoop emit rest n a s).1 →
      loop (stringLoop emit rest n a s).1 (stringLoop emit rest n a s).2)
    (hcomplete : ∀ r t, loop r t → ∃ n, Returned (stringLoop emit rest n a s).1) :
    RunsLoop w (finishTrap w (stringLoop emit rest l a s)) loop := by
  by_cases h : ∃ n, Returned (stringLoop emit rest ((n + 1) * l) a s).1
  · classical
    exact .inl ⟨_, _, Nat.find h, hsound _ (Nat.find_spec h),
      reaches_lap hl hrun hwork w fun _ => Nat.find_min h⟩
  · rw [not_exists] at h
    refine .inr ⟨?_, reaches_busy hl hrun hwork w h⟩
    rintro ⟨r, t, hloop⟩
    obtain ⟨n, hn⟩ := hcomplete r t hloop
    obtain ⟨m, hm⟩ := Nat.exists_eq_add_of_le
      ((Nat.le_succ n).trans (Nat.le_mul_of_pos_right (n + 1) hpos))
    exact h n (by rwa [hm, stringLoop_add_of_returned hn])

end

/-- Settles O32: the model's loop returns exactly when R84's ends, with its answer, and a step of
the TRAP is a lap. -/
theorem putsRunsItsLoopToTheEndOrForever : Obligations.PutsRunsItsLoopToTheEndOrForever := by
  intro s fx hrun h
  refine ⟨_, exec_trap_of_fixedOk h 0x22, ?_⟩
  rw [trapUnit_puts, linked_reg_r0]
  exact runsLoop_of_stringLoop add_ofNat_laps (s := linked s) (by decide) hrun (fun _ _ => rfl) _
    (fun _ => putsLoop_of_stringLoop) (fun _ _ => stringLoop_of_putsLoop)

/-- Settles O35: the same for R86's loop; PUTSP_STOP is a parameter, which no lap changes. -/
theorem putspRunsItsLoopToTheEndOrForever : Obligations.PutspRunsItsLoopToTheEndOrForever := by
  intro s fx hrun h
  refine ⟨_, exec_trap_of_fixedOk h 0x24, ?_⟩
  have hwork : GoesOn (putspEmit s.cfg.putspStop) .putsp lap (s.reg .r0) (linked s) :=
    fun u hu => by rw [continueWork, hu]; rfl
  rw [trapUnit_putsp, linked_reg_r0]
  exact runsLoop_of_stringLoop add_ofNat_laps (s := linked s) (by decide) hrun hwork _
    (fun _ => putspLoop_of_stringLoop) (fun _ _ => stringLoop_of_putspLoop)

end Sys2Proof.Machine
end

section
/-! SUPPORT. PUTS and PUTSP of a string in ordinary cells: the loop is one write of all the
string's bytes (43_trap R84, R86; log 9). -/

namespace Sys2Proof.Machine

open Sys2Proof.Spec

variable {emit : Word → List Byte × Bool} {a w : Word} {ws : List Word} {m : Memory}
  {s t : State} {bs cs : List Byte}

/-! ### Writing bytes -/

/-- Writing bytes changes the terminal only, and depends on the terminal only. -/
theorem writeChars_by_terminal (bs : List Byte) (τ : Terminal) :
    ∃ b τ', ∀ s : State, s.term = τ → writeChars bs s = (b, { s with term := τ' }) := by
  by_cases hout : Accepts τ bs.length
  · refine ⟨true, wrote τ bs, ?_⟩
    rintro s rfl
    exact writeChars_accepted bs s hout
  · obtain ⟨k, hk, hcut⟩ : ∃ k, τ.outLeft = some k ∧ k < bs.length := by
      simpa only [Accepts, not_forall, Nat.not_le, exists_prop] using hout
    refine ⟨false, wrote τ (bs.take k), ?_⟩
    rintro s rfl
    exact writeChars_cut hk hcut

theorem writeChars_mem (bs : List Byte) (s : State) : (writeChars bs s).2.mem = s.mem := by
  obtain ⟨b, τ', h⟩ := writeChars_by_terminal bs s.term
  rw [h s rfl]

theorem writeChars_append_of_true (h : writeChars bs s = (true, t)) (cs : List Byte) :
    writeChars (bs ++ cs) s = writeChars cs t := by
  induction bs generalizing s with
  | nil => cases h; rfl
  | cons b bs ih =>
    rw [writeChars] at h
    rw [List.cons_append, writeChars]
    split at h
    · cases h
    · exact ih h

theorem writeChars_append_of_false (h : writeChars bs s = (false, t)) (cs : List Byte) :
    writeChars (bs ++ cs) s = (false, t) := by
  induction bs generalizing s with
  | nil => cases h
  | cons b bs ih =>
    rw [writeChars] at h
    rw [List.cons_append, writeChars]
    split at h
    · exact h
    · exact ih h

/-! ### The string in memory -/

theorem stringAt_ne_zero (h : StringAt m a ws) : ∀ w ∈ ws, w ≠ 0 := by
  induction ws generalizing a with
  | nil => nofun
  | cons w ws ih =>
    obtain ⟨-, -, -, hw, hrest⟩ := h
    exact List.forall_mem_cons.mpr ⟨hw, ih hrest⟩

/-- No cell of the string, its terminator included, is the keyboard status. -/
theorem stringAt_ne_kbsr (h : StringAt m a ws) {k : Nat} (hk : k ≤ ws.length) :
    a + BitVec.ofNat 16 k ≠ kbsr := by
  induction ws generalizing a k with
  | nil =>
    obtain rfl : k = 0 := Nat.le_zero.mp hk
    simpa using h.1
  | cons w ws ih =>
    obtain ⟨hstatus, -, -, -, hrest⟩ := h
    cases k with
    | zero => simpa using hstatus
    | succ k => rw [add_ofNat_succ]; exact ih hrest (Nat.le_of_succ_le_succ hk)

/-- A string is shorter than a lap, since a lap comes past the keyboard. -/
theorem stringAt_length_lt (h : StringAt m a ws) : ws.length < lap := by
  by_contra hlong
  have hk : (kbsr - a).toNat ≤ ws.length := (kbsr - a).isLt.le.trans (Nat.le_of_not_lt hlong)
  refine stringAt_ne_kbsr h hk ?_
  rw [BitVec.ofNat_toNat, BitVec.setWidth_eq, BitVec.add_comm, BitVec.sub_add_cancel]

theorem mem_dropLast_cons {w' : Word} (h : w' ∈ ws.dropLast) : w' ∈ (w :: ws).dropLast := by
  cases ws with
  | nil => cases h
  | cons => exact List.mem_cons_of_mem _ h

/-- The answer of a string routine that has written its bytes, or some of them. -/
def stringAnswer (r : Bool × State) : TrapResult × State :=
  (if r.1 then .ok else .fault .terminalIOError, r.2)

/-- The loop over a string of which no word but the last ends it is one write of the bytes of all
its words. -/
theorem stringLoop_string (hzero : emit 0 = ([], true)) (rest : Word → TrapWork) {fuel : Nat}
    (hstring : StringAt s.mem a ws) (hgo : ∀ w ∈ ws.dropLast, (emit w).2 = false)
    (hfuel : ws.length < fuel) :
    stringLoop emit rest fuel a s =
      stringAnswer (writeChars (ws.flatMap fun w => (emit w).1) s) := by
  induction ws generalizing a s fuel with
  | nil =>
    obtain ⟨fuel, rfl⟩ := Nat.exists_eq_add_of_lt hfuel
    obtain ⟨hstatus, hdata, hword⟩ := hstring
    have hread : memRead a s = (0, s) := by rw [memRead_ordinary s hstatus hdata, hword]
    exact stringLoop_end (by rw [hread, hzero]; rfl) (by rw [hread, hzero])
  | cons w ws ih =>
    obtain ⟨fuel, rfl⟩ := Nat.exists_eq_add_of_lt hfuel
    obtain ⟨hstatus, hdata, hword, -, hrest⟩ := hstring
    have hread : memRead a s = (w, s) := by rw [memRead_ordinary s hstatus hdata, hword]
    have hmem := writeChars_mem (emit w).1 s
    rw [List.flatMap_cons]
    match hw : writeChars (emit w).1 s with
    | (false, t) =>
      rw [stringLoop_error (t := t) (by rw [hread, hw]), writeChars_append_of_false hw]
      rfl
    | (true, t) =>
      rw [hw] at hmem
      rw [writeChars_append_of_true hw]
      cases hend : (emit w).2 with
      | true =>
        obtain rfl : ws = [] := by
          cases ws with
          | nil => rfl
          | cons w' ws => cases hend.symm.trans (hgo w (by simp))
        exact stringLoop_end (t := t) (by rw [hread, hw]) (by rw [hread, hend])
      | false =>
        rw [stringLoop_next (t := t) (by rw [hread, hw]) (by rw [hread, hend])]
        refine ih (hmem ▸ hrest) (fun w' hw' => hgo w' (mem_dropLast_cons hw')) ?_
        rw [List.length_cons]
        omega

/-! ### PUTS -/

/-- Settles O33: the loop is one write of the low bytes, which the terminal accepts or cuts
short. -/
theorem putsWritesTheLowBytesOfAString : Obligations.PutsWritesTheLowBytesOfAString := by
  intro s fx ws h hstring
  have hnonzero := stringAt_ne_zero hstring
  have hbytes : (ws.flatMap fun w => (putsEmit w).1) = ws.map lowByte := by
    rw [List.map_eq_flatMap]
    exact List.flatMap_congr fun w hw => putsEmit_nonzero (hnonzero w hw)
  have hu : trapUnit 0x22 (linked s) = stringAnswer (writeChars (ws.map lowByte) (linked s)) := by
    rw [trapUnit_puts, linked_reg_r0, ← hbytes]
    exact stringLoop_string putsEmit_zero .puts (s := linked s) hstring
      (fun w hw => by rw [putsEmit_of_ne_zero (hnonzero w (List.mem_of_mem_dropLast hw))])
      (stringAt_length_lt hstring)
  refine ⟨fun hout => ?_, fun k hk hcut => ?_⟩
  · have hwrite := writeChars_accepted (ws.map lowByte) (linked s)
      (by rw [List.length_map]; exact hout)
    rw [hwrite] at hu
    exact exec_trap_ok h hu
  · have hwrite := writeChars_cut (bs := ws.map lowByte) (s := linked s) hk
      (by rw [List.length_map]; exact hcut)
    rw [hwrite, ← List.map_take] at hu
    exact exec_trap_fault h hu

/-! ### PUTSP -/

/-- PUTSP of a string that no word but the last ends is one write of its bytes. -/
theorem trapUnit_putsp_string {stop : PutspStop} (hstop : s.cfg.putspStop = stop)
    (hstring : StringAt s.mem (s.reg .r0) ws) (hgo : ∀ w ∈ ws.dropLast, ¬ PutspEnds stop w) :
    trapUnit 0x24 s = stringAnswer (writeChars (ws.flatMap (putspBytes stop)) s) := by
  have hzero : putspEmit stop 0 = ([], true) := by cases stop <;> rfl
  rw [trapUnit_putsp, hstop, stringLoop_string hzero .putsp hstring
    (fun w hw => (putspEmit_snd_false stop w).mpr (hgo w hw)) (stringAt_length_lt hstring)]
  simp only [putspEmit_fst]

/-- Settles O36: the loop is one write of the words' bytes, which the terminal accepts. -/
theorem putspWritesBothBytesOfAString : Obligations.PutspWritesBothBytesOfAString := by
  intro s fx ws h hstop hstring hout
  have hu := trapUnit_putsp_string (s := linked s) hstop hstring
    fun w hw => stringAt_ne_zero hstring w (List.mem_of_mem_dropLast hw)
  rw [writeChars_accepted _ (linked s) hout] at hu
  exact exec_trap_ok h hu

theorem lowByte_ne_zero_of_bothReadingsAgree (h : BothReadingsAgree ws) :
    ∀ w ∈ ws, lowByte w ≠ 0 := by
  induction ws using BothReadingsAgree.induct with
  | case1 => nofun
  | case2 w => exact List.forall_mem_singleton.mpr h
  | case3 w w' ws ih =>
    obtain ⟨hlow, -, hrest⟩ := h
    exact List.forall_mem_cons.mpr ⟨hlow, ih hrest⟩

theorem highByte_ne_zero_of_bothReadingsAgree (h : BothReadingsAgree ws) :
    ∀ w ∈ ws.dropLast, highByte w ≠ 0 := by
  induction ws using BothReadingsAgree.induct with
  | case1 => nofun
  | case2 w => nofun
  | case3 w w' ws ih =>
    obtain ⟨-, hhigh, hrest⟩ := h
    exact List.forall_mem_cons.mpr ⟨hhigh, ih hrest⟩

/-- A word with a nonzero low byte has the same bytes under either value of PUTSP_STOP. -/
theorem putspBytes_zeroByte (h : lowByte w ≠ 0) :
    putspBytes .zeroByte w = putspBytes .zeroWord w := by
  have hw : w ≠ 0 := by rintro rfl; exact h rfl
  simp only [putspBytes, if_neg h, if_neg hw]

/-- Under either value of PUTSP_STOP a packed string is one write of the same bytes. -/
theorem trapUnit_putsp_packed (hstring : StringAt s.mem (s.reg .r0) ws)
    (hpacked : BothReadingsAgree ws) :
    trapUnit 0x24 s = stringAnswer (writeChars (ws.flatMap (putspBytes .zeroWord)) s) := by
  cases hstop : s.cfg.putspStop with
  | zeroWord =>
    exact trapUnit_putsp_string hstop hstring
      fun w hw => stringAt_ne_zero hstring w (List.mem_of_mem_dropLast hw)
  | zeroByte =>
    have hlow := lowByte_ne_zero_of_bothReadingsAgree hpacked
    have hhigh := highByte_ne_zero_of_bothReadingsAgree hpacked
    rw [trapUnit_putsp_string hstop hstring fun w hw =>
      not_or.mpr ⟨hlow w (List.mem_of_mem_dropLast hw), hhigh w hw⟩,
      List.flatMap_congr fun w hw => putspBytes_zeroByte (hlow w hw)]

/-- A state under the parameters `cfg` with a value of PUTSP_STOP. -/
def withPutspStop (cfg : Config) (stop : PutspStop) (s : State) : State :=
  { s with cfg := { cfg with putspStop := stop } }

theorem finishTrap_withPutspStop (cfg : Config) (stop : PutspStop) (w : Word) (r : TrapResult)
    (t : State) :
    finishTrap w (r, withPutspStop cfg stop t) = withPutspStop cfg stop (finishTrap w (r, t)) := by
  cases r <;> rfl

/-- PUTSP of a packed string, by a terminal that answers its bytes alike, leaves one state but for
PUTSP_STOP. -/
theorem exec_putsp_packed {fx : BitVec 4} (h : FixedOk s (fx = 0b0000#4))
    (hstring : StringAt s.mem (s.reg .r0) ws) (hpacked : BothReadingsAgree ws) :
    ∃ t, ∀ stop, exec (.trap fx 0x24) (withPutspStop s.cfg stop s) =
      .next (withPutspStop s.cfg stop t) := by
  obtain ⟨b, τ, hwrite⟩ := writeChars_by_terminal (ws.flatMap (putspBytes .zeroWord)) s.term
  refine ⟨finishTrap (encode (.trap fx 0x24)) (stringAnswer (b, { linked s with term := τ })),
    fun stop => ?_⟩
  have hu : trapUnit 0x24 (linked (withPutspStop s.cfg stop s)) =
      stringAnswer (b, withPutspStop s.cfg stop { linked s with term := τ }) :=
    (trapUnit_putsp_packed (s := linked (withPutspStop s.cfg stop s)) hstring hpacked).trans
      (congrArg stringAnswer (hwrite _ rfl))
  rw [exec_trap_of_fixedOk (s := withPutspStop s.cfg stop s) h, hu]
  exact congrArg Host.Outcome.next (finishTrap_withPutspStop s.cfg stop _ _ _)

/-- Settles O37: the two readings write the same bytes of a packed string, and the fixed-bit check
does not look at PUTSP_STOP. -/
theorem putspReadingsAgreeOnPackedStrings : Obligations.PutspReadingsAgreeOnPackedStrings := by
  intro s fx ws hstring hpacked
  obtain ⟨t, ht⟩ : ∃ t, ∀ stop, exec (.trap fx 0x24) (withPutspStop s.cfg stop s) =
      .next (withPutspStop s.cfg stop t) := by
    by_cases hillegal : Illegal (.trap fx 0x24) s
    · exact ⟨faulted .illegalEncoding (encode (.trap fx 0x24)) s,
        fun stop => exec_illegal _ (withPutspStop s.cfg stop s) hillegal.1 hillegal.2⟩
    · exact exec_putsp_packed ((fixedOk_of_not_illegal hillegal).imp_right beq_iff_eq.mp) hstring
        hpacked
  exact ⟨t, ht .zeroWord, ht .zeroByte⟩

end Sys2Proof.Machine
end
